-- ==== Sys2Proof/Word.lean ====
section
/-! DEFINITION. Widths of the values the block handles (spec/00_scope.md R9, R10): every value is an
unsigned integer of a stated width. -/

namespace Sys2Proof

/-- One key byte (R9: key byte width 8 bits). -/
abbrev Byte := BitVec 8

/-- One key word, one round key, or one half of a block (R7: word width 32 bits, fixed). -/
abbrev Word := BitVec 32

/-- A 64-bit block: the data operand, the data result, the packed word (R7: block width 64 bits, fixed). -/
abbrev Block := BitVec 64

end Sys2Proof
end

