-- ==== Sys2Proof/Config.lean ====
section
/-! DEFINITION. What is fixed when an instance of the block is built (spec/00_scope.md R7, spec/10_state.md
R24), and the one value the spec leaves open to its reader (R200: the mask character). -/

namespace Sys2Proof

/-- The instance constants (R7): `T`, `ALPHA`, `BETA`, `N_MAX`. The proof fields are R7's legal ranges: an
instance outside them is no instance of the block (spec/93 U11: "the model's configuration type excludes
them"). -/
structure Config where
  /-- `T`: the number of rounds and of round keys. -/
  rounds : Nat
  /-- `ALPHA`: the right rotation of a round. -/
  alpha : Nat
  /-- `BETA`: the left rotation of a round. -/
  beta : Nat
  /-- `N_MAX`: the greatest number of key words a key load accepts. -/
  nMax : Nat
  rounds_legal : 1 ≤ rounds ∧ rounds ≤ 255 := by decide
  alpha_legal : alpha ≤ 31 := by decide
  beta_legal : beta ≤ 31 := by decide
  nMax_legal : 2 ≤ nMax ∧ nMax ≤ 255 := by decide
deriving DecidableEq, Repr

/-- The standard instance (R7): `T = 27`, `ALPHA = 8`, `BETA = 3`, `N_MAX = 4`. -/
def Config.standard : Config := { rounds := 27, alpha := 8, beta := 3, nMax := 4 }

/-- The fixed mask character of the masked display form. The source does not say which character it is and "a
model must not assume one" (R200, spec/91 N15, spec/93 U19): a free value. No command reads it. -/
opaque Config.maskChar : Char

end Sys2Proof
end

