-- ==== Sys2Proof/Syntax.lean ====
section
/-! DEFINITION. The ten commands (spec/30_encoding.md R62), one constructor per row of spec/opcode_table.json,
with the operands of their formats (R63 to R67), and the shape of a command word (R69). -/

namespace Sys2Proof

/-- A command and its operands (R60). `NW` of KEYW and `NB` of KEYB are "the number of key words presented" and
"the number of key bytes presented" (R64, R65): the length of the list. -/
inductive Instr where
  /-- STAT, format Z (R176). -/
  | stat
  /-- KEYW, format W (R103): the key words, `key[0]` first. -/
  | keyw (key : List Word)
  /-- KEYB, format B (R104): the key bytes, `kb[0]` first. -/
  | keyb (kb : List Byte)
  /-- KEYCLR, format Z (R105). -/
  | keyclr
  /-- ENC, format D (R107). -/
  | enc (data : Block)
  /-- DEC, format D (R109). -/
  | dec (data : Block)
  /-- PACK, format F (R140). -/
  | pack (region : BitVec 20) (year : BitVec 14) (month : BitVec 4) (day : BitVec 5) (seq : BitVec 10)
  /-- UNPACK, format D (R145). -/
  | unpack (data : Block)
  /-- ENCODE, format F (R171). -/
  | encode (region : BitVec 20) (year : BitVec 14) (month : BitVec 4) (day : BitVec 5) (seq : BitVec 10)
  /-- DECODE, format D (R173). -/
  | decode (data : Block)
deriving DecidableEq, Repr

/-- The canonical command word (R69), most significant bit first: the fields of the format concatenated in the
listed order with `OP` first. Its length is no whole number of bytes (4, 57, 68, 12 + 32*NW, 20 + 8*NB bits). -/
abbrev CommandWord := List Bool

end Sys2Proof
end

