-- ==== Sys2Proof/WellFormed.lean ====
section
/-! DEFINITION. Which commands a command word can spell. The operand fields of fixed width hold their value by
type; a key list must be countable by its count field (spec/30_encoding.md R64, R65). -/

namespace Sys2Proof

/-- `NW` is 8 bits wide, 0 to 255 (R64); `NB` is 16 bits wide, 0 to 65535 (R65); nothing else can be wrong. -/
def Instr.wellFormed : Instr → Bool
  | .keyw key => decide (key.length ≤ 255)
  | .keyb kb => decide (kb.length ≤ 65535)
  | .stat => true
  | .keyclr => true
  | .enc _ => true
  | .dec _ => true
  | .pack _ _ _ _ _ => true
  | .unpack _ => true
  | .encode _ _ _ _ _ => true
  | .decode _ => true

end Sys2Proof
end

