-- ==== Sys2Proof/Decode.lean ====
section
/-! DEFINITION. Command words to commands and back (spec/30_encoding.md R61 to R69, R87), and the reading of a
row of spec/opcode_table.json as a command word. -/

namespace Sys2Proof

/-- The `n` low bits of `v`, most significant first (R10: bit 0 is the least significant). -/
def bitsOf : Nat → Nat → List Bool
  | 0, _ => []
  | n + 1, v => v.testBit n :: bitsOf n v

/-- The unsigned number that a string of bits spells, most significant first. -/
def natOf : List Bool → Nat
  | [] => 0
  | b :: bs => b.toNat * 2 ^ bs.length + natOf bs

/-- The field made of the next `n` bits of a command word. -/
def field (n : Nat) (bs : List Bool) : BitVec n := BitVec.ofNat n (natOf (bs.take n))

/-- `k` elements of `n` bits each, element 0 first (R64, R65). -/
def elements (n : Nat) : Nat → List Bool → List (BitVec n)
  | 0, _ => []
  | k + 1, bs => field n bs :: elements n k (bs.drop n)

/-- Why a bit string is no command. -/
inductive DecodeError where
  /-- Fewer than the four bits of `OP`. -/
  | noOpcode
  /-- A known `OP`, and fewer bits than its format has. -/
  | truncated
  /-- A known `OP`, and more bits than its format has ("nothing more", R60). -/
  | trailingBits
  /-- `OP` is 0xA to 0xF (R87). -/
  | reserved (op : BitVec 4)
deriving DecidableEq, Repr

/-- `i`, if the operand part has exactly the `want` bits of its format (R61: a command's length is fixed by its
format, or by its count field). -/
def ofLength (want : Nat) (rest : List Bool) (i : Instr) : Except DecodeError Instr :=
  if rest.length < want then .error .truncated
  else if want < rest.length then .error .trailingBits
  else .ok i

/-- Format W (R64): `NW` in 8 bits, then `NW` words of 32 bits, `key[0]` first. -/
def decodeW (rest : List Bool) : Except DecodeError Instr :=
  if rest.length < 8 then .error .truncated
  else ofLength (8 + 32 * (field 8 rest).toNat) rest
    (.keyw (elements 32 (field 8 rest).toNat (rest.drop 8)))

/-- Format B (R65): `NB` in 16 bits, then `NB` bytes, `kb[0]` first. -/
def decodeB (rest : List Bool) : Except DecodeError Instr :=
  if rest.length < 16 then .error .truncated
  else ofLength (16 + 8 * (field 16 rest).toNat) rest
    (.keyb (elements 8 (field 16 rest).toNat (rest.drop 16)))

/-- Format D (R66): `DATA` in 64 bits. -/
def decodeD (mk : Block → Instr) (rest : List Bool) : Except DecodeError Instr :=
  ofLength 64 rest (mk (field 64 rest))

/-- Format F (R67): `REGION` 20, `YEAR` 14, `MONTH` 4, `DAY` 5, `SEQ` 10 bits. -/
def decodeF (mk : BitVec 20 → BitVec 14 → BitVec 4 → BitVec 5 → BitVec 10 → Instr) (rest : List Bool) :
    Except DecodeError Instr :=
  ofLength 53 rest (mk (field 20 rest) (field 14 (rest.drop 20)) (field 4 (rest.drop 34))
    (field 5 (rest.drop 38)) (field 10 (rest.drop 43)))

/-- The opcode map (R62). -/
def decodeOperands (op : BitVec 4) (rest : List Bool) : Except DecodeError Instr :=
  match op.toNat with
  | 0x0 => ofLength 0 rest .stat
  | 0x1 => decodeW rest
  | 0x2 => decodeB rest
  | 0x3 => ofLength 0 rest .keyclr
  | 0x4 => decodeD .enc rest
  | 0x5 => decodeD .dec rest
  | 0x6 => decodeF .pack rest
  | 0x7 => decodeD .unpack rest
  | 0x8 => decodeF .encode rest
  | 0x9 => decodeD .decode rest
  | _ => .error (.reserved op)

/-- The command that a command word spells. Total on every bit string. -/
def decode (w : CommandWord) : Except DecodeError Instr :=
  if w.length < 4 then .error .noOpcode else decodeOperands (field 4 w) (w.drop 4)

/-- Formats W and B: the elements in order, `n` bits each. -/
def encodeElements {n : Nat} (xs : List (BitVec n)) : List Bool := xs.flatMap fun x => bitsOf n x.toNat

/-- Format F (R67). -/
def encodeF (region : BitVec 20) (year : BitVec 14) (month : BitVec 4) (day : BitVec 5) (seq : BitVec 10) :
    List Bool :=
  bitsOf 20 region.toNat ++ (bitsOf 14 year.toNat ++ (bitsOf 4 month.toNat ++
    (bitsOf 5 day.toNat ++ bitsOf 10 seq.toNat)))

/-- The canonical command word of a command (R63 to R67). -/
def encode : Instr → CommandWord
  | .stat => bitsOf 4 0x0
  | .keyw key => bitsOf 4 0x1 ++ (bitsOf 8 key.length ++ encodeElements key)
  | .keyb kb => bitsOf 4 0x2 ++ (bitsOf 16 kb.length ++ encodeElements kb)
  | .keyclr => bitsOf 4 0x3
  | .enc data => bitsOf 4 0x4 ++ bitsOf 64 data.toNat
  | .dec data => bitsOf 4 0x5 ++ bitsOf 64 data.toNat
  | .pack region year month day seq => bitsOf 4 0x6 ++ encodeF region year month day seq
  | .unpack data => bitsOf 4 0x7 ++ bitsOf 64 data.toNat
  | .encode region year month day seq => bitsOf 4 0x8 ++ encodeF region year month day seq
  | .decode data => bitsOf 4 0x9 ++ bitsOf 64 data.toNat

/-- The number of bits of a command's word (R63 to R67). -/
def commandBits : Instr → Nat
  | .stat => 4
  | .keyw key => 12 + 32 * key.length
  | .keyb kb => 20 + 8 * kb.length
  | .keyclr => 4
  | .enc _ => 68
  | .dec _ => 68
  | .pack _ _ _ _ _ => 57
  | .unpack _ => 68
  | .encode _ _ _ _ _ => 57
  | .decode _ => 68

/-- The number of zero operand bits that complete a word whose row gives bits to `OP` alone. -/
def zeroOperandBits (op : Nat) : Nat :=
  match op with
  | 0x1 => 8
  | 0x2 => 16
  | 0x4 => 64
  | 0x5 => 64
  | 0x6 => 53
  | 0x7 => 64
  | 0x8 => 53
  | 0x9 => 64
  | _ => 0

/-- Whether the decoder reads a command from the word. -/
def spells (w : CommandWord) : Bool :=
  match decode w with
  | .ok _ => true
  | .error _ => false

/-- A row's bits as spec/opcode_table.json numbers them (bit 0 least significant, the whole word one number),
as a command word. The row's length is rounded up to whole bytes in `nbits`, so the word's own length is one of
`nbits`, …, `nbits - 7`. A row may also give bits only to `OP` (`match` and `mask` of KEYW and KEYB) or only to
`OP` and the count: the bits it leaves out are then zeros after those it gives. -/
def tableWord (nbits w : Nat) : CommandWord :=
  match (List.range 8).find? (fun k => decide (w < 2 ^ (nbits - k)) && spells (bitsOf (nbits - k) w)) with
  | some k => bitsOf (nbits - k) w
  | none =>
    if w < 16 then bitsOf 4 w ++ List.replicate (zeroOperandBits w) false
    else if nbits ≤ 16 ∧ w / 2 ^ 8 = 0x1 then bitsOf 12 w ++ List.replicate (32 * (w % 2 ^ 8)) false
    else if nbits ≤ 24 ∧ w / 2 ^ 16 = 0x2 then bitsOf 20 w ++ List.replicate (8 * (w % 2 ^ 16)) false
    else bitsOf nbits w

/-- The command the decoder reads from a row of spec/opcode_table.json. -/
def decodeTableWord (nbits w : Nat) : Option Instr :=
  match decode (tableWord nbits w) with
  | .ok i => some i
  | .error _ => none

end Sys2Proof
end

