-- ==== Sys2Proof/Machine/Response.lean ====
section
/-! DEFINITION. What the block answers (spec/30_encoding.md R80): the sum type "ok result | err kind detail
value" that R80 and spec/92 D13 recommend, and the flat record that is its hardware form. -/

namespace Sys2Proof.Machine

/-- The five fields an error can name (R83). -/
inductive FieldId where
  | regionCode
  | year
  | month
  | day
  | sequence
deriving DecidableEq, Repr

/-- The eleven error kinds (spec/60_exceptions.md R210), one enumeration for the block and the host-side string
functions (R81). The first three are never raised by the block (R211, R212, R213). -/
inductive ErrorKind where
  | invalidLength
  | invalidCharacter
  | invalidCheckCode
  | invalidDate
  | unsupportedVersion
  | reservedBitsNotZero
  | invalidBitField
  | invalidKey
  | outOfRange
  | keyNotLoaded
  | illegalCommand
deriving DecidableEq, Repr

/-- The check code (R75): 0 to 9, and 10 for 'X'; 11 to 15 never appear. -/
abbrev CheckCode := Fin 11

/-- The five numeric fields, at their operand and result widths (R9, R67, R80). -/
structure Fields where
  region : BitVec 20
  year : BitVec 14
  month : BitVec 4
  day : BitVec 5
  seq : BitVec 10
deriving DecidableEq, Repr

/-- An error the block raises, with what R83 and R84 report of it. -/
inductive BlockError where
  /-- R214: in-range operands that are no calendar date. `feb29` is February 29 of a non-leap year. -/
  | invalidDate (feb29 : Bool) (day : BitVec 5)
  /-- R215: the version nibble `v[3:0]`. -/
  | unsupportedVersion (ver : BitVec 4)
  /-- R216: the reserved byte `v[63:56]`. -/
  | reservedBitsNotZero (byte : BitVec 8)
  /-- R217: an over-wide region code or sequence of a packed word. -/
  | invalidBitField (which : FieldId) (value : Nat)
  /-- R218: the presented count, `NW` or `NB`. -/
  | invalidKey (count : Nat)
  /-- R219: a field outside its decimal range. -/
  | outOfRange (which : FieldId) (value : Nat)
  /-- R220. -/
  | keyNotLoaded
  /-- R221: the reserved opcode. -/
  | illegalCommand (op : BitVec 4)
deriving DecidableEq, Repr

/-- The result fields that a successful command fills (R85). -/
inductive Result where
  /-- KEYW, KEYB, KEYCLR. -/
  | nothing
  /-- STAT, ENC, DEC, PACK, ENCODE. -/
  | data (d : Block)
  /-- UNPACK, DECODE. -/
  | fields (f : Fields) (check : CheckCode)
deriving DecidableEq, Repr

/-- The two outcomes of a command (R13). -/
inductive Response where
  | ok (r : Result)
  | err (e : BlockError)
deriving DecidableEq, Repr

/-- The hardware form of a response (R80). -/
structure ResponseRecord where
  status : BitVec 4
  layer : BitVec 1
  detail : BitVec 3
  value : BitVec 64
  data : BitVec 64
  region : BitVec 20
  year : BitVec 14
  month : BitVec 4
  day : BitVec 5
  seq : BitVec 10
  check : BitVec 4
deriving DecidableEq, Repr

end Sys2Proof.Machine
end

