-- ==== Sys2Proof/Machine/State.lean ====
section
/-! DEFINITION. The state (spec/10_state.md R20: exactly `RK` and `KEY_VALID`), what stands around it so that
one step can be taken (the instance, whether the block has been reset, the host's inputs to come, the response
the last step delivered), and the reasons a step can stop. -/

namespace Sys2Proof.Machine

/-- What the outside can do to the block: issue a command, or one of the asynchronous events of
spec/70_reset_and_hazards.md and spec/60_exceptions.md R235. -/
inductive HostInput where
  /-- A command presented when the block is ready for it (R60). -/
  | command (w : CommandWord)
  /-- A command presented before the response to the previous one, on a binding that cannot hold it off (R250). -/
  | earlyCommand (w : CommandWord)
  /-- A command accepted, and a reset before its response has been delivered (R241). -/
  | commandCutByReset (w : CommandWord)
  /-- A reset between commands (R240). -/
  | reset
  /-- The platform removes power or clock; the state is retained, or the block is reset before its next command
  (R235). -/
  | powerLoss (retained : Bool)
deriving DecidableEq, Repr

/-- The machine. `rk` and `keyValid` are the block's architectural state; the other fields are the model's own
(log entries 1, 2, 3, 4). -/
structure State where
  /-- The instance constants (R24). They are no state of the block: they stand here because `step` has no other
  argument, so that what is proved of it holds for every legal instance. No step changes them (R240). -/
  inst : Config
  /-- `RK[0]`, …, `RK[T-1]` (R21). -/
  rk : List Word
  /-- `KEY_VALID` (R22). -/
  keyValid : Bool
  /-- Whether the block has been reset since power-up (R242). -/
  wasReset : Bool
  /-- The host's inputs to come, in issue order (R45). -/
  stream : List HostInput
  /-- The response that the last step delivered, if it delivered one (R60). No command reads it (R28). -/
  response : Option Response
deriving DecidableEq, Repr

/-- The reset state of an instance (R30): no key, all round keys zero; here with nothing issued yet. -/
def State.resetOf (c : Config) : State :=
  { inst := c
    rk := List.replicate c.rounds 0
    keyValid := false
    wasReset := true
    stream := []
    response := none }

/-- The machine right after reset (R30, R240), for the standard instance (R7). -/
def State.reset : State := State.resetOf Config.standard

/-- Why the machine stops with a fault. No command of the block faults: an error is a response (R223). -/
inductive Fault where
  /-- Raised by `step` alone (`accept` in Machine/Port.lean), for a bit string that is no command word: it is
  shorter or longer than the format of its `OP`. The spec's binding delivers only whole command records (R60,
  R69), so the spec says nothing of it. Safe: the model stops. -/
  | malformedCommand (why : DecodeError)
deriving DecidableEq, Repr

/-- Why the model gives a step no meaning. -/
inductive Refusal where
  /-- An instruction that has no meaning yet (no arm of `exec` uses it). Safe. -/
  | notModelled (mnemonic : String)
  /-- Raised by `step` alone, for a command issued between power-up and the first reset: "a model gives commands
  issued then no meaning" (R242). Safe. -/
  | beforeFirstReset
  /-- Raised by `step` alone, for a command presented before the previous response: "outside this spec and a model
  gives it no meaning" (R250). Safe. -/
  | presentedEarly
deriving DecidableEq, Repr

/-- The outcome of one step of this machine. -/
abbrev StepOutcome := Host.Outcome State Fault Refusal

end Sys2Proof.Machine
end

