-- ==== Sys2Proof/Machine/Operands.lean ====
section
/-! DEFINITION. Operand assembly (spec/30_encoding.md R68): key bytes into key words, a block into its halves, the
packed word into its fields; and the operators of spec/00_scope.md R11 on 32-bit words. `+32` and `-32` are `+`
and `-` of `Word`. -/

namespace Sys2Proof.Machine

/-- `rol32(x, r)` (R11), for `0 <= r <= 31`. -/
def rol32 (x : Word) (r : Nat) : Word := if r = 0 then x else (x <<< r) ||| (x >>> (32 - r))

/-- `ror32(x, r)` (R11), for `0 <= r <= 31`. -/
def ror32 (x : Word) (r : Nat) : Word := if r = 0 then x else (x >>> r) ||| (x <<< (32 - r))

/-- The two halves of a block while a cipher command works on it (R43). -/
structure Halves where
  high : Word
  low : Word
deriving DecidableEq, Repr

/-- `high = v >> 32`, `low = v and 0xFFFFFFFF` (R43). -/
def splitBlock (v : Block) : Halves := ⟨v.extractLsb' 32 32, v.extractLsb' 0 32⟩

/-- `(high << 32) or low` (R43). -/
def joinHalves (h : Halves) : Block := (h.high.setWidth 64 <<< 32) ||| h.low.setWidth 64

/-- One key word from four key bytes, least significant byte first (R42). -/
def wordOfBytes (b0 b1 b2 b3 : Byte) : Word :=
  b0.setWidth 32 ||| (b1.setWidth 32 <<< 8) ||| (b2.setWidth 32 <<< 16) ||| (b3.setWidth 32 <<< 24)

/-- Key bytes to key words, `key[j]` from bytes `4j` to `4j+3` (R42). Bytes beyond a whole number of words form no
word; KEYB rejects such a key before this is used (R104). -/
def wordsOfBytes : List Byte → List Word
  | b0 :: b1 :: b2 :: b3 :: rest => wordOfBytes b0 b1 b2 b3 :: wordsOfBytes rest
  | _ => []

/-- The format version of a packed word (R8, R24). -/
def formatVersion : BitVec 4 := 1

/-- `v[63:56]` (R70). -/
def reservedOf (v : Block) : BitVec 8 := v.extractLsb' 56 8

/-- `v[55:36]` (R70). -/
def regionOf (v : Block) : BitVec 20 := v.extractLsb' 36 20

/-- `v[35:14]` (R70). -/
def offsetOf (v : Block) : BitVec 22 := v.extractLsb' 14 22

/-- `v[13:4]` (R70). -/
def seqOf (v : Block) : BitVec 10 := v.extractLsb' 4 10

/-- `v[3:0]` (R70). -/
def versionOf (v : Block) : BitVec 4 := v.extractLsb' 0 4

/-- `(region << 36) or (off << 14) or (seq << 4) or 1` (R71). -/
def packedWord (region : BitVec 20) (off : Nat) (seq : BitVec 10) : Block :=
  (region.setWidth 64 <<< 36) ||| (BitVec.ofNat 64 off <<< 14) ||| (seq.setWidth 64 <<< 4) |||
    formatVersion.setWidth 64

end Sys2Proof.Machine
end

