-- ==== Sys2Proof/Machine/Flags.lean ====
section
/-! DEFINITION. The block has no flags and no condition codes (spec/10_state.md R28). What takes their place is
the status part of a response (spec/30_encoding.md R80 to R85) and the STAT word (R86), computed here. -/

namespace Sys2Proof.Machine

/-- The number of a field (R83). -/
def FieldId.number : FieldId → BitVec 3
  | .regionCode => 1
  | .year => 2
  | .month => 3
  | .day => 4
  | .sequence => 5

/-- The status code of a kind (R81). -/
def ErrorKind.code : ErrorKind → BitVec 4
  | .invalidLength => 1
  | .invalidCharacter => 2
  | .invalidCheckCode => 3
  | .invalidDate => 4
  | .unsupportedVersion => 5
  | .reservedBitsNotZero => 6
  | .invalidBitField => 7
  | .invalidKey => 8
  | .outOfRange => 9
  | .keyNotLoaded => 10
  | .illegalCommand => 11

/-- The kind of an error the block raises (R210). -/
def BlockError.kind : BlockError → ErrorKind
  | .invalidDate _ _ => .invalidDate
  | .unsupportedVersion _ => .unsupportedVersion
  | .reservedBitsNotZero _ => .reservedBitsNotZero
  | .invalidBitField _ _ => .invalidBitField
  | .invalidKey _ => .invalidKey
  | .outOfRange _ _ => .outOfRange
  | .keyNotLoaded => .keyNotLoaded
  | .illegalCommand _ => .illegalCommand

/-- `LAYER` (R82): 1 for the cipher-layer kinds. -/
def ErrorKind.layer : ErrorKind → BitVec 1
  | .invalidKey => 1
  | .keyNotLoaded => 1
  | .invalidLength => 0
  | .invalidCharacter => 0
  | .invalidCheckCode => 0
  | .invalidDate => 0
  | .unsupportedVersion => 0
  | .reservedBitsNotZero => 0
  | .invalidBitField => 0
  | .outOfRange => 0
  | .illegalCommand => 0

/-- `DETAIL` (R83). -/
def BlockError.detail : BlockError → BitVec 3
  | .invalidDate feb29 _ => if feb29 then 1 else 0
  | .invalidBitField which _ => which.number
  | .outOfRange which _ => which.number
  | .unsupportedVersion _ => 0
  | .reservedBitsNotZero _ => 0
  | .invalidKey _ => 0
  | .keyNotLoaded => 0
  | .illegalCommand _ => 0

/-- `VALUE` (R84), zero-extended to 64 bits. -/
def BlockError.value : BlockError → BitVec 64
  | .invalidDate _ day => day.setWidth 64
  | .unsupportedVersion ver => ver.setWidth 64
  | .reservedBitsNotZero byte => byte.setWidth 64
  | .invalidBitField _ value => BitVec.ofNat 64 value
  | .invalidKey count => BitVec.ofNat 64 count
  | .outOfRange _ value => BitVec.ofNat 64 value
  | .keyNotLoaded => 0
  | .illegalCommand op => op.setWidth 64

/-- A response record with every field zero. -/
def ResponseRecord.zero : ResponseRecord :=
  { status := 0, layer := 0, detail := 0, value := 0, data := 0, region := 0, year := 0, month := 0, day := 0,
    seq := 0, check := 0 }

/-- The result fields of a successful command, all other fields zero (R80, R85). -/
def Result.record : Result → ResponseRecord
  | .nothing => ResponseRecord.zero
  | .data d => { ResponseRecord.zero with data := d }
  | .fields f check =>
    { ResponseRecord.zero with
      region := f.region, year := f.year, month := f.month, day := f.day, seq := f.seq
      check := BitVec.ofNat 4 check.val }

/-- The hardware form of a response (R80). -/
def Response.record : Response → ResponseRecord
  | .ok r => r.record
  | .err e =>
    { ResponseRecord.zero with
      status := e.kind.code, layer := e.kind.layer, detail := e.detail, value := e.value }

/-- The STAT status word (R86, R176). -/
def statusWord (c : Config) (keyValid : Bool) : Block :=
  BitVec.ofNat 64 keyValid.toNat ||| (formatVersion.setWidth 64 <<< 4) ||| (BitVec.ofNat 64 c.rounds <<< 8) |||
    (BitVec.ofNat 64 c.alpha <<< 16) ||| (BitVec.ofNat 64 c.beta <<< 24) ||| (BitVec.ofNat 64 c.nMax <<< 32)

end Sys2Proof.Machine
end

