-- ==== Sys2Proof/Machine/Ops.lean ====
section
/-! DEFINITION. The named operations on the state. The block has no memory (spec/20_memory.md R40) and no
registers (spec/10_state.md R26): there are the round-key store with its flag, and the response. -/

namespace Sys2Proof.Machine

/-- `respond` (R13): deliver a response; no architectural state changes. -/
def respond (r : Response) (s : State) : State := { s with response := some r }

/-- TAKING AN ERROR, the block's one form of exception (R13, R223): the command ends with the error as its response
and writes no architectural state. Nothing is saved, no mode changes, control goes nowhere, so there is no return
from it either (R224): the block is at once ready for the next command. -/
def raise (e : BlockError) (s : State) : State := respond (.err e) s

/-- Write all of `RK` and set `KEY_VALID`, together (R46, R103). -/
def storeKey (rk : List Word) (s : State) : State := { s with rk := rk, keyValid := true }

/-- Zero all of `RK` and clear `KEY_VALID`, together (R105). -/
def clearKey (s : State) : State := { s with rk := List.replicate s.inst.rounds 0, keyValid := false }

/-- The whole effect of a reset (R30, R240): no key, `RK` zero, no response (R241), the constants unaffected. The
host's inputs to come are not the block's and stay. -/
def resetBlock (s : State) : State := { clearKey s with wasReset := true, response := none }

/-- The block with the host's next input taken (R45). -/
def consume (rest : List HostInput) (s : State) : State := { s with stream := rest }

/-- A step that delivers no response. -/
def silent (s : State) : State := { s with response := none }

/-- End a command with a result or an error (R13). -/
def finish (r : Except BlockError Result) (s : State) : StepOutcome :=
  match r with
  | .ok res => .next (respond (.ok res) s)
  | .error e => .next (raise e s)

end Sys2Proof.Machine
end

