-- ==== Sys2Proof/Machine/Calendar.lean ====
section
/-! DEFINITION. The proleptic Gregorian calendar with a year 0 (spec/41_bitfield.md R130 to R134). -/

namespace Sys2Proof.Machine

/-- `is_leap` (R130). -/
def isLeap (y : Nat) : Bool := y % 4 == 0 && (y % 100 != 0 || y % 400 == 0)

/-- `month_len` (R131), for `1 <= m <= 12`. -/
def monthLen (y m : Nat) : Nat :=
  match m with
  | 1 => 31
  | 2 => if isLeap y then 29 else 28
  | 3 => 31
  | 4 => 30
  | 5 => 31
  | 6 => 30
  | 7 => 31
  | 8 => 31
  | 9 => 30
  | 10 => 31
  | 11 => 30
  | 12 => 31
  | _ => 0

/-- `cum(y, m)` (R131): the sum of `month_len(y, k)` for `k` in `1..m`. -/
def daysBeforeMonth (y : Nat) : Nat → Nat
  | 0 => 0
  | 1 => 0
  | m + 2 => daysBeforeMonth y (m + 1) + monthLen y (m + 1)

/-- `year_len` (R131). -/
def yearLen (y : Nat) : Nat := if isLeap y then 366 else 365

/-- A year, month and day of the calendar. -/
structure CalendarDate where
  year : Nat
  month : Nat
  day : Nat
deriving DecidableEq, Repr

/-- `valid_date` (R132). -/
def validDate (y m d : Nat) : Bool := decide (y ≤ 9999 ∧ 1 ≤ m ∧ m ≤ 12 ∧ 1 ≤ d ∧ d ≤ monthLen y m)

/-- `leaps_before` (R133). -/
def leapsBefore (y : Nat) : Nat := if y = 0 then 0 else (y - 1) / 4 - (y - 1) / 100 + (y - 1) / 400 + 1

/-- `days_from_epoch` (R133). -/
def daysFromEpoch (y m d : Nat) : Nat := 365 * y + leapsBefore y + daysBeforeMonth y m + (d - 1)

/-- The year of a century and the 0-based day of that year, for a century `c` of a 400-year cycle and day `rc` of
it (R134). -/
def yearOfCentury (c rc : Nat) : Nat × Nat :=
  if 1 ≤ c ∧ rc < 1460 then (rc / 365, rc % 365)
  else
    let a := if c = 0 then 0 else 4
    let rr := if c = 0 then rc else rc - 1460
    let q4 := rr / 1461
    let r4 := rr % 1461
    if r4 < 366 then (a + 4 * q4, r4) else (a + 4 * q4 + (1 + (r4 - 366) / 365), (r4 - 366) % 365)

/-- The year of a day offset and the 0-based day of that year (R134). -/
def yearOfOffset (off : Nat) : Nat × Nat :=
  let q400 := off / 146097
  let r := off % 146097
  let c := if r < 36525 then 0 else 1 + (r - 36525) / 36524
  let rc := if r < 36525 then r else (r - 36525) % 36524
  let p := yearOfCentury c rc
  (400 * q400 + 100 * c + p.1, p.2)

/-- The loop over the months (R134): at most `fuel` months are passed. -/
def monthOfDay (y : Nat) : Nat → Nat → Nat → Nat × Nat
  | 0, m, doy => (m, doy + 1)
  | fuel + 1, m, doy => if doy < monthLen y m then (m, doy + 1) else monthOfDay y fuel (m + 1) (doy - monthLen y m)

/-- `date_from_days` (R134). A year has twelve months, so at most eleven are passed. -/
def dateFromDays (off : Nat) : CalendarDate :=
  let p := yearOfOffset off
  let q := monthOfDay p.1 11 1 p.2
  ⟨p.1, q.1, q.2⟩

end Sys2Proof.Machine
end

