-- ==== Sys2Proof/Machine/CheckCode.lean ====
section
/-! DEFINITION. The checksum function (spec/41_bitfield.md R135, R136; its tables also spec/10_state.md R24). -/

namespace Sys2Proof.Machine

/-- The `width` decimal digits of `n`, most significant first (R76). -/
def decimalDigits : Nat → Nat → List Nat
  | 0, _ => []
  | w + 1, n => n / 10 ^ w % 10 :: decimalDigits w n

/-- `digits` (R135): the 17 digits of the fields, at widths 6, 4, 2, 2, 3. -/
def digits (region y m d seq : Nat) : List Nat :=
  decimalDigits 6 region ++ (decimalDigits 4 y ++ (decimalDigits 2 m ++ (decimalDigits 2 d ++ decimalDigits 3 seq)))

/-- The weight table `W` (R24, R136). -/
def weights : List Nat := [7, 9, 10, 5, 8, 4, 2, 1, 6, 3, 7, 9, 10, 5, 8, 4, 2]

/-- The remainder table `MC`: the source's `M` in check codes, 10 for 'X' (R24, R136). -/
def remainderCodes : List CheckCode := [1, 0, 10, 9, 8, 7, 6, 5, 4, 3, 2]

/-- The weighted sum of digits (R136). -/
def weightedSum : List Nat → List Nat → Nat
  | d :: ds, w :: ws => d * w + weightedSum ds ws
  | _, _ => 0

/-- `check_code` (R136). -/
def checkCode (dig : List Nat) : CheckCode := remainderCodes.getD (weightedSum dig weights % 11) 0

end Sys2Proof.Machine
end

