-- ==== Sys2Proof/Machine/BitField.lean ====
section
/-! DEFINITION. The bit-field packer and unpacker (spec/41_bitfield.md): PACK and UNPACK. -/

namespace Sys2Proof.Machine

/-- February 29, which is legal in a leap year only (R140). -/
def isFeb29 (month day : Nat) : Bool := decide (month = 2 ∧ day = 29)

/-- PACK's checks, in order, and its word (R140, R222). -/
def packChecked (f : Fields) : Except BlockError Block :=
  if 999999 < f.region.toNat then .error (.outOfRange .regionCode f.region.toNat)
  else if 9999 < f.year.toNat then .error (.outOfRange .year f.year.toNat)
  else if f.month.toNat < 1 ∨ 12 < f.month.toNat then .error (.outOfRange .month f.month.toNat)
  else if f.day.toNat < 1 then .error (.outOfRange .day f.day.toNat)
  else if 999 < f.seq.toNat then .error (.outOfRange .sequence f.seq.toNat)
  else if monthLen f.year.toNat f.month.toNat < f.day.toNat then
    .error (.invalidDate (isFeb29 f.month.toNat f.day.toNat) f.day)
  else .ok (packedWord f.region (daysFromEpoch f.year.toNat f.month.toNat f.day.toNat) f.seq)

/-- The fields and the check code of an acceptable packed word (R145, steps 4 and 5). -/
def unpackedResult (v : Block) (date : CalendarDate) : Result :=
  .fields ⟨regionOf v, BitVec.ofNat 14 date.year, BitVec.ofNat 4 date.month, BitVec.ofNat 5 date.day, seqOf v⟩
    (checkCode (digits (regionOf v).toNat date.year date.month date.day (seqOf v).toNat))

/-- UNPACK's checks, in order, and its fields (R145, R222). -/
def unpackChecked (v : Block) : Except BlockError Result :=
  if versionOf v ≠ formatVersion then .error (.unsupportedVersion (versionOf v))
  else if reservedOf v ≠ 0 then .error (.reservedBitsNotZero (reservedOf v))
  else
    let date := dateFromDays (offsetOf v).toNat
    if 9999 < date.year then .error (.outOfRange .year date.year)
    else if 999999 < (regionOf v).toNat then .error (.invalidBitField .regionCode (regionOf v).toNat)
    else if 999 < (seqOf v).toNat then .error (.invalidBitField .sequence (seqOf v).toNat)
    else .ok (unpackedResult v date)

/-- PACK (R140). -/
def execPack (region : BitVec 20) (year : BitVec 14) (month : BitVec 4) (day : BitVec 5) (seq : BitVec 10)
    (s : State) : StepOutcome :=
  finish ((packChecked ⟨region, year, month, day, seq⟩).map .data) s

/-- UNPACK (R145). -/
def execUnpack (data : Block) (s : State) : StepOutcome := finish (unpackChecked data) s

end Sys2Proof.Machine
end

