-- ==== Sys2Proof/Machine/Cipher.lean ====
section
/-! DEFINITION. The block cipher (spec/40_cipher.md): `expand`, `encrypt`, `decrypt`, and the commands KEYW, KEYB,
KEYCLR, ENC, DEC. -/

namespace Sys2Proof.Machine

/-- `S[j]` after iteration `i` (R102): `(ror32(S[j], ALPHA) +32 rk[i]) xor zext_32(i)`. -/
def scheduleWord (c : Config) (i : Nat) (sj k : Word) : Word := (ror32 sj c.alpha + k) ^^^ BitVec.ofNat 32 i

/-- The `n` round keys after `rk[i] = k`, from the buffer `S` as iteration `i` finds it (R102). The buffer has
`N-1` words, so `j = i mod (N-1)`. -/
def scheduleFrom (c : Config) : Nat → Nat → List Word → Word → List Word
  | 0, _, _, _ => []
  | n + 1, i, buf, k =>
    let j := i % buf.length
    let sj := scheduleWord c i (buf.getD j 0) k
    let k' := rol32 k c.beta ^^^ sj
    k' :: scheduleFrom c n (i + 1) (buf.set j sj) k'

/-- `expand` (R102): the last key word is round key 0, the others fill the buffer in array order (R101); `T-1`
iterations. Used for keys of two words or more. -/
def expand (c : Config) (key : List Word) : List Word :=
  let rk0 := key.getLastD 0
  rk0 :: scheduleFrom c (c.rounds - 1) 0 key.dropLast rk0

/-- One round of `encrypt` (R106); `low` uses the `high` just written. -/
def encryptRound (c : Config) (h : Halves) (k : Word) : Halves :=
  let high := (ror32 h.high c.alpha + h.low) ^^^ k
  ⟨high, rol32 h.low c.beta ^^^ high⟩

/-- One round of `decrypt` (R108); `high` uses the `low` just written. -/
def decryptRound (c : Config) (h : Halves) (k : Word) : Halves :=
  let low := ror32 (h.low ^^^ h.high) c.beta
  ⟨rol32 ((h.high ^^^ k) - low) c.alpha, low⟩

/-- `encrypt` (R106): the round keys in order. -/
def encrypt (c : Config) (rk : List Word) (v : Block) : Block :=
  joinHalves (rk.foldl (encryptRound c) (splitBlock v))

/-- `decrypt` (R108): the round keys in reverse order. -/
def decrypt (c : Config) (rk : List Word) (v : Block) : Block :=
  joinHalves (rk.reverse.foldl (decryptRound c) (splitBlock v))

/-- Load a key of accepted length, or raise `InvalidKey` with the presented count and write nothing (R103, R104). -/
def loadKey (accepted : Bool) (count : Nat) (key : List Word) (s : State) : StepOutcome :=
  if accepted then .next (respond (.ok .nothing) (storeKey (expand s.inst key) s))
  else .next (raise (.invalidKey count) s)

/-- KEYW (R103). -/
def execKeyw (key : List Word) (s : State) : StepOutcome :=
  loadKey (decide (2 ≤ key.length ∧ key.length ≤ s.inst.nMax)) key.length key s

/-- KEYB (R104). -/
def execKeyb (kb : List Byte) (s : State) : StepOutcome :=
  loadKey (decide (kb.length % 4 = 0 ∧ 2 ≤ kb.length / 4 ∧ kb.length / 4 ≤ s.inst.nMax)) kb.length
    (wordsOfBytes kb) s

/-- KEYCLR (R105). -/
def execKeyclr (s : State) : StepOutcome := .next (respond (.ok .nothing) (clearKey s))

/-- ENC (R107). -/
def execEnc (data : Block) (s : State) : StepOutcome :=
  finish (if s.keyValid then .ok (.data (encrypt s.inst s.rk data)) else .error .keyNotLoaded) s

/-- DEC (R109). -/
def execDec (data : Block) (s : State) : StepOutcome :=
  finish (if s.keyValid then .ok (.data (decrypt s.inst s.rk data)) else .error .keyNotLoaded) s

end Sys2Proof.Machine
end

