-- ==== Sys2Proof/Machine/Composer.lean ====
section
/-! DEFINITION. The composed commands ENCODE and DECODE, and STAT (spec/42_composer.md). -/

namespace Sys2Proof.Machine

/-- The cipher stage of ENCODE: the identity when no cipher is configured (R170, R171). -/
def encryptIfKeyed (s : State) (p : Block) : Block := if s.keyValid then encrypt s.inst s.rk p else p

/-- The cipher stage of DECODE: the identity when no cipher is configured (R170, R173). -/
def decryptIfKeyed (s : State) (v : Block) : Block := if s.keyValid then decrypt s.inst s.rk v else v

/-- ENCODE (R171): PACK's checks first, then the cipher stage. -/
def execEncode (region : BitVec 20) (year : BitVec 14) (month : BitVec 4) (day : BitVec 5) (seq : BitVec 10)
    (s : State) : StepOutcome :=
  finish ((packChecked ⟨region, year, month, day, seq⟩).map fun p => .data (encryptIfKeyed s p)) s

/-- DECODE (R173): the cipher stage, then UNPACK's checks on what it gives. -/
def execDecode (data : Block) (s : State) : StepOutcome := finish (unpackChecked (decryptIfKeyed s data)) s

/-- STAT (R176). -/
def execStat (s : State) : StepOutcome := finish (.ok (.data (statusWord s.inst s.keyValid))) s

end Sys2Proof.Machine
end

