-- ==== Sys2Proof/Machine/Dispatch.lean ====
section
/-! DEFINITION. One arm per command: its meaning, called by its full name. -/

namespace Sys2Proof.Machine

def exec (i : Instr) (s : State) : Host.Outcome State Fault Refusal :=
  match i with
  | .stat => Sys2Proof.Machine.execStat s
  | .keyw key => Sys2Proof.Machine.execKeyw key s
  | .keyb kb => Sys2Proof.Machine.execKeyb kb s
  | .keyclr => Sys2Proof.Machine.execKeyclr s
  | .enc data => Sys2Proof.Machine.execEnc data s
  | .dec data => Sys2Proof.Machine.execDec data s
  | .pack region year month day seq => Sys2Proof.Machine.execPack region year month day seq s
  | .unpack data => Sys2Proof.Machine.execUnpack data s
  | .encode region year month day seq => Sys2Proof.Machine.execEncode region year month day seq s
  | .decode data => Sys2Proof.Machine.execDecode data s

end Sys2Proof.Machine
end

