-- ==== Sys2Proof/Machine/Port.lean ====
section
/-! DEFINITION. The command port: what the block does with the host's next input (spec/30_encoding.md R60,
spec/20_memory.md R45, spec/70_reset_and_hazards.md R240 to R242, R250). -/

namespace Sys2Proof.Machine

/-- What an input comes to: a command to execute in a state, or an outcome already. -/
inductive Accepted where
  | run (i : Instr) (s : State)
  | done (o : Host.Outcome State Fault Refusal)

/-- A command word at the port (R60). A reserved opcode raises `IllegalCommand` whatever follows it (R87). -/
def acceptCommand (w : CommandWord) (s : State) : Accepted :=
  if s.wasReset then
    match decode w with
    | .ok i => .run i s
    | .error (.reserved op) => .done (.next (raise (.illegalCommand op) s))
    | .error why => .done (.fault (.malformedCommand why))
  else .done (.refused .beforeFirstReset)

/-- One input (R45). -/
def acceptInput (input : HostInput) (s : State) : Accepted :=
  match input with
  | .command w => acceptCommand w s
  | .earlyCommand _ => .done (.refused .presentedEarly)
  | .commandCutByReset _ => .done (.next (resetBlock s))
  | .reset => .done (.next (resetBlock s))
  | .powerLoss retained => .done (.next (if retained then silent s else resetBlock s))

/-- The host's next input; with none, the block waits (R27: the order of work is the host's). -/
def accept (s : State) : Accepted :=
  match s.stream with
  | [] => .done (.next (silent s))
  | input :: rest => acceptInput input (consume rest s)

/-- The block with a row of spec/opcode_table.json presented at its port as the next input, ready to take it. -/
def present (nbits w : Nat) (s : State) : State :=
  { s with stream := .command (tableWord nbits w) :: s.stream, wasReset := true }

end Sys2Proof.Machine
end

