-- ==== Sys2Proof/Machine/Step.lean ====
section
/-! DEFINITION. One step: the host's next input, whole (spec/20_memory.md R46: every command is one atomic
step). -/

namespace Sys2Proof.Machine

/-- One step of the machine. -/
def step (s : State) : Host.Outcome State Fault Refusal :=
  match accept s with
  | .run i t => exec i t
  | .done o => o

/-- `s` with an opcode-table row's word presented as the next command. The block fetches nothing (R51): its next
instruction is the command at its port. -/
def State.withFetchWord (s : State) (nbits w : Nat) : State := present nbits w s

end Sys2Proof.Machine
end

