-- ==== Sys2Proof/Machine/HostStrings.lean ====
section
/-! DEFINITION. The host-side string functions (spec/43_host_string_functions.md), pure functions beside the
machine: they read and write no block state. A string is its list of characters. -/

namespace Sys2Proof.Machine

/-- Why a host-side function fails, with the offending value where R214 and R219 record one. -/
inductive HostError where
  /-- R211, no recorded value. -/
  | invalidLength
  /-- R212. -/
  | invalidCharacter
  /-- R213. -/
  | invalidCheckCode
  /-- R214: the day. `feb29` is February 29 of a non-leap year. -/
  | invalidDate (feb29 : Bool) (day : Nat)
  /-- R219: the field's value, which may have any sign and size (R197). -/
  | outOfRange (which : FieldId) (value : Int)
deriving DecidableEq, Repr

/-- The kind of a host-side failure, in the enumeration it shares with the block (R81). -/
def HostError.kind : HostError → ErrorKind
  | .invalidLength => .invalidLength
  | .invalidCharacter => .invalidCharacter
  | .invalidCheckCode => .invalidCheckCode
  | .invalidDate _ _ => .invalidDate
  | .outOfRange _ _ => .outOfRange

/-- `DETAIL` of a host-side failure (R83, R193, R197). -/
def HostError.detail : HostError → BitVec 3
  | .invalidLength => 0
  | .invalidCharacter => 0
  | .invalidCheckCode => 0
  | .invalidDate feb29 _ => if feb29 then 1 else 0
  | .outOfRange which _ => which.number

/-- The source's `IdentityNumber`: the validated fields and their check code (R15, R193). -/
structure IdentityNumber where
  region : Nat
  year : Nat
  month : Nat
  day : Nat
  seq : Nat
  check : CheckCode
deriving DecidableEq, Repr

/-- One of the ten ASCII digits and nothing else (R190). -/
def isDigitChar (c : Char) : Bool := decide (48 ≤ c.toNat ∧ c.toNat ≤ 57)

/-- Upper-casing of ASCII letters; every other character stays (R190). -/
def upperChar (c : Char) : Char := if 97 ≤ c.toNat ∧ c.toNat ≤ 122 then Char.ofNat (c.toNat - 32) else c

/-- Upper-casing of a string (R190). -/
def upperString (s : List Char) : List Char := s.map upperChar

/-- The value of a digit (R191). -/
def digitValue (c : Char) : Nat := c.toNat - 48

/-- The digit of a value (R76). -/
def digitChar (n : Nat) : Char := Char.ofNat (48 + n)

/-- The character of a check code (R75): 10 is 'X'. -/
def checkChar (code : CheckCode) : Char := if code = 10 then 'X' else digitChar code.val

/-- Fixed-width decimal parsing, most significant digit first (R193). -/
def decimal (s : List Char) : Nat := s.foldl (fun n c => 10 * n + digitValue c) 0

/-- `checksum` (R191), as a check code: the length is tested first. -/
def checksumCode (first17 : List Char) : Except HostError CheckCode :=
  if first17.length ≠ 17 then .error .invalidLength
  else if !first17.all isDigitChar then .error .invalidCharacter
  else .ok (checkCode (first17.map digitValue))

/-- `checksum` (R191). -/
def checksum (first17 : List Char) : Except HostError Char := (checksumCode first17).map checkChar

/-- `validate` (R192). DESIGN CHOICE (log entry 11): R192 does not order its two failures for an input that is not 18
characters long and has a non-digit among its first 17; the length is tested first. -/
def validate (full18 : List Char) : Except HostError Unit :=
  if full18.length ≠ 18 then .error .invalidLength
  else
    match checksum (full18.take 17) with
    | .error e => .error e
    | .ok c => if upperChar (full18.getD 17 '0') = c then .ok () else .error .invalidCheckCode

/-- Steps 5 and 6 of `parse` (R193), on an upper-cased string of 18 characters with the check code `code`. -/
def parseFields (u : List Char) (code : CheckCode) : Except HostError IdentityNumber :=
  let year := decimal ((u.drop 6).take 4)
  let month := decimal ((u.drop 10).take 2)
  let day := decimal ((u.drop 12).take 2)
  if validDate year month day then
    .ok ⟨decimal (u.take 6), year, month, day, decimal ((u.drop 14).take 3), code⟩
  else .error (.invalidDate (isFeb29 month day) day)

/-- `parse` (R193). In step 4 the character's class is tested before the comparison (spec/90 C3). -/
def parse (s : List Char) : Except HostError IdentityNumber :=
  if s.length ≠ 18 then .error .invalidLength
  else
    let u := upperString s
    let last := u.getD 17 '0'
    if !(u.take 17).all isDigitChar then .error .invalidCharacter
    else if !isDigitChar last && last != 'X' then .error .invalidCharacter
    else
      match checksumCode (u.take 17) with
      | .error e => .error e
      | .ok code => if last = checkChar code then parseFields u code else .error .invalidCheckCode

/-- `format` (R197), over integers of any sign and size. -/
def formatFields (region year month day seq : Int) : Except HostError IdentityNumber :=
  if region < 0 ∨ 999999 < region then .error (.outOfRange .regionCode region)
  else if year < 0 ∨ 9999 < year then .error (.outOfRange .year year)
  else if month < 1 ∨ 12 < month then .error (.outOfRange .month month)
  else if day < 1 ∨ 31 < day then .error (.outOfRange .day day)
  else if seq < 0 ∨ 999 < seq then .error (.outOfRange .sequence seq)
  else if validDate year.toNat month.toNat day.toNat then
    .ok ⟨region.toNat, year.toNat, month.toNat, day.toNat, seq.toNat,
      checkCode (digits region.toNat year.toNat month.toNat day.toNat seq.toNat)⟩
  else .error (.invalidDate (isFeb29 month.toNat day.toNat) day.toNat)

/-- The canonical string (R199). -/
def canonicalString (n : IdentityNumber) : List Char :=
  (digits n.region n.year n.month n.day n.seq).map digitChar ++ [checkChar n.check]

/-- The masked form of a string (R200): first 4 and last 4 characters visible, the middle 10 replaced with the mask
character, which is free. -/
def maskedString (s : List Char) : List Char :=
  s.take 4 ++ (List.replicate 10 Config.maskChar ++ s.drop 14)

/-- The ENCODE command a host issues for a parsed number (R201). -/
def encodeCommand (n : IdentityNumber) : Instr :=
  .encode (BitVec.ofNat 20 n.region) (BitVec.ofNat 14 n.year) (BitVec.ofNat 4 n.month) (BitVec.ofNat 5 n.day)
    (BitVec.ofNat 10 n.seq)

/-- The PACK command a host issues for a parsed number (R201). -/
def packCommand (n : IdentityNumber) : Instr :=
  .pack (BitVec.ofNat 20 n.region) (BitVec.ofNat 14 n.year) (BitVec.ofNat 4 n.month) (BitVec.ofNat 5 n.day)
    (BitVec.ofNat 10 n.seq)

/-- The identity number a host forms from the result fields of UNPACK or DECODE (R145, R199). -/
def identityOf (f : Fields) (check : CheckCode) : IdentityNumber :=
  ⟨f.region.toNat, f.year.toNat, f.month.toNat, f.day.toNat, f.seq.toNat, check⟩

end Sys2Proof.Machine
end

