-- ==== Sys2Proof/Safety.lean ====
section
/-! DEFINITION. What the claims mean by a sound state and by a host that keeps its side of the interface. -/

namespace Sys2Proof.Machine

/-- The invariant (spec/10_state.md R21, R30, R31): `RK` has `T` words; once the block has been reset, `RK` is zero
while no key is loaded, and is the expansion of some key of an accepted length while one is. -/
structure Inv (s : State) : Prop where
  rk_length : s.rk.length = s.inst.rounds
  rk_zero : s.wasReset = true → s.keyValid = false → s.rk = List.replicate s.inst.rounds 0
  rk_expanded : s.wasReset = true → s.keyValid = true →
    ∃ key : List Word, 2 ≤ key.length ∧ key.length ≤ s.inst.nMax ∧ s.rk = expand s.inst key

/-- A bit string the block answers: a command, or any bits after a reserved opcode (spec/30_encoding.md R87). -/
def answerable (w : CommandWord) : Bool :=
  match decode w with
  | .ok _ => true
  | .error (.reserved _) => true
  | .error _ => false

/-- The host's duties along its inputs to come: whole command records only (R60), none before the first reset
(R242), none before the previous response (R250). The flag says whether the block has been reset. -/
def obeys : Bool → List HostInput → Bool
  | _, [] => true
  | ready, .command w :: rest => ready && (answerable w && obeys ready rest)
  | _, .earlyCommand _ :: _ => false
  | ready, .commandCutByReset _ :: rest => ready && obeys true rest
  | _, .reset :: rest => obeys true rest
  | ready, .powerLoss retained :: rest => obeys (ready || !retained) rest

/-- The host of this state keeps its duties. -/
def HostObeys (s : State) : Prop := obeys s.wasReset s.stream = true

/-- The commands that may change the key (spec/10_state.md R31): KEYW, KEYB, KEYCLR. -/
def isKeyCommand : Instr → Bool
  | .keyw _ => true
  | .keyb _ => true
  | .keyclr => true
  | .stat => false
  | .enc _ => false
  | .dec _ => false
  | .pack _ _ _ _ _ => false
  | .unpack _ => false
  | .encode _ _ _ _ _ => false
  | .decode _ => false

/-- The commands that may read `RK` (spec/10_state.md R21, R32): ENC, DEC, ENCODE, DECODE. -/
def mayReadRoundKeys : Instr → Bool
  | .enc _ => true
  | .dec _ => true
  | .encode _ _ _ _ _ => true
  | .decode _ => true
  | .stat => false
  | .keyw _ => false
  | .keyb _ => false
  | .keyclr => false
  | .pack _ _ _ _ _ => false
  | .unpack _ => false

/-- The operands PACK and ENCODE accept (spec/41_bitfield.md R140): the decimal ranges and a calendar date. -/
def legalFields (f : Fields) : Bool :=
  decide (f.region.toNat ≤ 999999 ∧ f.seq.toNat ≤ 999) && validDate f.year.toNat f.month.toNat f.day.toNat

/-- The words UNPACK accepts, as R147 lists them. -/
def legalWord (v : Block) : Bool :=
  decide (versionOf v = 1 ∧ reservedOf v = 0 ∧ (offsetOf v).toNat ≤ 3652424 ∧ (regionOf v).toNat ≤ 999999 ∧
    (seqOf v).toNat ≤ 999)

end Sys2Proof.Machine
end

