-- ==== Sys2Proof/Certificates/Slice0/Obligations.lean ====
section
/-! DEFINITION. The statements for the provers. Each docstring names the rule of spec/ it formalises, or says that
it is the model's own choice and names the log entry. "Answers" below always means: the next state is the same
state with that response delivered, and nothing else changed. -/

open Sys2Proof Sys2Proof.Machine

/-! ### Command words -/

/-- Formats Z, W, B, D, F (30_encoding.md R63 to R67): the decoder reads back every encoded command. -/
def Obligations.DecodeOfEncodeIsTheCommand : Prop :=
  ∀ i : Instr, i.wellFormed = true → decode (encode i) = .ok i

/-- The other direction: a word has one meaning, and that meaning's canonical word is the word. -/
def Obligations.EncodeOfDecodeIsTheWord : Prop :=
  ∀ (w : CommandWord) (i : Instr), decode w = .ok i → i.wellFormed = true ∧ encode i = w

/-- Words of 95_test_vectors.md section 6, written out. -/
def Obligations.SampleCommandWordsDecode : Prop :=
  decode [false, false, false, false] = .ok .stat ∧
  decode [false, false, true, true] = .ok .keyclr ∧
  decode (bitsOf 76 0x1021111111122222222) = .ok (.keyw [0x11111111, 0x22222222]) ∧
  decode (bitsOf 68 0x43B7265747475432D) = .ok (.enc 0x3b7265747475432d) ∧
  decode (bitsOf 68 0x58C6FA548454E028B) = .ok (.dec 0x8c6fa548454e028b) ∧
  decode (bitsOf 57 0x0C35C2A0000847B) = .ok (.pack 110101 0 1 1 123) ∧
  decode (bitsOf 68 0x7001AE150000007B1) = .ok (.unpack 0x001AE150000007B1) ∧
  decode (bitsOf 57 0x1035C323CEE7C02) = .ok (.encode 110105 1949 12 31 2) ∧
  decode (bitsOf 68 0x97838F640AF72F366) = .ok (.decode 0x7838F640AF72F366)

/-- R63, R66, R67: the canonical words of formats Z, D and F as numbers. In format F, `OP` stands in bits 56 to 53,
`REGION` in 52 to 33, `YEAR` in 32 to 19, `MONTH` in 18 to 15, `DAY` in 14 to 10, `SEQ` in 9 to 0. -/
def Obligations.WordsOfTheFixedLengthFormats : Prop :=
  (natOf (encode .stat) = 0x0 ∧ (encode .stat).length = 4 ∧
    natOf (encode .keyclr) = 0x3 ∧ (encode .keyclr).length = 4) ∧
  (∀ d : Block,
    (natOf (encode (.enc d)) = 0x4 * 2 ^ 64 + d.toNat ∧ (encode (.enc d)).length = 68) ∧
    (natOf (encode (.dec d)) = 0x5 * 2 ^ 64 + d.toNat ∧ (encode (.dec d)).length = 68) ∧
    (natOf (encode (.unpack d)) = 0x7 * 2 ^ 64 + d.toNat ∧ (encode (.unpack d)).length = 68) ∧
    (natOf (encode (.decode d)) = 0x9 * 2 ^ 64 + d.toNat ∧ (encode (.decode d)).length = 68)) ∧
  ∀ (r : BitVec 20) (y : BitVec 14) (m : BitVec 4) (d : BitVec 5) (q : BitVec 10),
    (natOf (encode (.pack r y m d q)) =
      0x6 * 2 ^ 53 + r.toNat * 2 ^ 33 + y.toNat * 2 ^ 19 + m.toNat * 2 ^ 15 + d.toNat * 2 ^ 10 + q.toNat ∧
      (encode (.pack r y m d q)).length = 57) ∧
    (natOf (encode (.encode r y m d q)) =
      0x8 * 2 ^ 53 + r.toNat * 2 ^ 33 + y.toNat * 2 ^ 19 + m.toNat * 2 ^ 15 + d.toNat * 2 ^ 10 + q.toNat ∧
      (encode (.encode r y m d q)).length = 57)

/-- R64 and R65: `OP`, the count, then the elements, element 0 in the most significant place. -/
def Obligations.WordsOfFormatsWAndB : Prop :=
  (∀ key : List Word, key.length ≤ 255 →
    (encode (.keyw key)).length = 12 + 32 * key.length ∧
    natOf (encode (.keyw key)) / 2 ^ (32 * key.length) = 0x1 * 2 ^ 8 + key.length ∧
    ∀ j < key.length,
      natOf (encode (.keyw key)) / 2 ^ (32 * (key.length - 1 - j)) % 2 ^ 32 = (key.getD j 0).toNat) ∧
  (∀ kb : List Byte, kb.length ≤ 65535 →
    (encode (.keyb kb)).length = 20 + 8 * kb.length ∧
    natOf (encode (.keyb kb)) / 2 ^ (8 * kb.length) = 0x2 * 2 ^ 16 + kb.length ∧
    ∀ j < kb.length,
      natOf (encode (.keyb kb)) / 2 ^ (8 * (kb.length - 1 - j)) % 2 ^ 8 = (kb.getD j 0).toNat)

/-! ### The port: one input a step -/

/-- 20_memory.md section 3 (R45, R46): with a command word at the port that decodes to `i`, a step is `exec i` of the
state with that input taken. -/
def Obligations.StepRunsTheDecodedCommand : Prop :=
  ∀ (s : State) (w : CommandWord) (rest : List HostInput) (i : Instr),
    s.wasReset = true → s.stream = .command w :: rest → decode w = .ok i →
    step s = exec i { s with stream := rest }

/-- R87, R221: a reserved opcode raises `IllegalCommand` with the opcode as its value, whatever bits follow. -/
def Obligations.ReservedOpcodeRaisesIllegalCommand : Prop :=
  ∀ (s : State) (op : BitVec 4) (operands : List Bool) (rest : List HostInput),
    10 ≤ op.toNat → s.wasReset = true → s.stream = .command (bitsOf 4 op.toNat ++ operands) :: rest →
    step s = .next { s with stream := rest, response := some (.err (.illegalCommand op)) } ∧
    (Response.err (.illegalCommand op)).record =
      { status := 11, layer := 0, detail := 0, value := op.setWidth 64, data := 0, region := 0, year := 0, month := 0,
        day := 0, seq := 0, check := 0 }

/-- The model's choice (log entry 5): a bit string that is neither a command nor led by a reserved opcode stops the
machine. -/
def Obligations.MalformedCommandWordStops : Prop :=
  ∀ (s : State) (w : CommandWord) (rest : List HostInput) (why : DecodeError),
    s.wasReset = true → s.stream = .command w :: rest → decode w = .error why → (∀ op, why ≠ .reserved op) →
    step s = .fault (.malformedCommand why)

/-- 10_state.md section 4 (R30): the state after reset of every instance. That the model's `State.reset` is the reset
state of the standard instance is the model's choice (log entry 1). -/
def Obligations.ResetStateHoldsNoKey : Prop :=
  (∀ c : Config, (State.resetOf c).keyValid = false ∧ (State.resetOf c).rk.length = c.rounds ∧
    ∀ i < c.rounds, (State.resetOf c).rk[i]? = some 0) ∧
  State.reset = State.resetOf Config.standard

/-- 70_reset_and_hazards.md section 1 (R240, R241): the whole effect of a reset, in every state, is the reset state,
the instance constants unaffected; a command cut by a reset, whatever it is, delivers no response and leaves the same
state; no command changes the constants. That a command and the reset that cuts it are one step is the model's
deduction (log entry 9), and that this holds in a block never reset before is its choice (log entry 2). -/
def Obligations.ResetGivesTheResetState : Prop :=
  ∀ (s : State) (rest : List HostInput),
    (s.stream = .reset :: rest → step s = .next { State.resetOf s.inst with stream := rest }) ∧
    (∀ w, s.stream = .commandCutByReset w :: rest →
      step s = .next { State.resetOf s.inst with stream := rest }) ∧
    (State.resetOf s.inst).response = none ∧ (State.resetOf s.inst).wasReset = true ∧
    (∀ i t, exec i s = .next t → t.inst = s.inst)

/-- 60_exceptions.md section 5 (R235): after a loss of power or clock the state is retained unchanged, or the block is
reset before its next command. That the loss without retention is itself the reset is the model's deduction (log
entry 9). -/
def Obligations.PowerLossRetainsOrResets : Prop :=
  ∀ (s : State) (retained : Bool) (rest : List HostInput), s.stream = .powerLoss retained :: rest →
    (retained = true → step s = .next { s with stream := rest, response := none }) ∧
    (retained = false → step s = .next { State.resetOf s.inst with stream := rest })

/-- R242: a command issued between power-up and the first reset has no meaning, whatever `KEY_VALID` and `RK` hold.
-/
def Obligations.CommandBeforeFirstResetHasNoMeaning : Prop :=
  ∀ (s : State) (w : CommandWord) (rest : List HostInput), s.wasReset = false → s.stream = .command w :: rest →
    step s = .refused .beforeFirstReset

/-- 70_reset_and_hazards.md section 3: a command presented before the previous response has no meaning. -/
def Obligations.CommandPresentedEarlyHasNoMeaning : Prop :=
  ∀ (s : State) (w : CommandWord) (rest : List HostInput), s.stream = .earlyCommand w :: rest →
    step s = .refused .presentedEarly

/-! ### STAT -/

/-- R86, R176: STAT answers the status word, bit field by bit field, in every state of every instance. -/
def Obligations.StatAnswersTheStatusWord : Prop :=
  (∀ s : State, ∃ w : Block, exec .stat s = .next { s with response := some (.ok (.data w)) } ∧
    w.extractLsb' 0 1 = BitVec.ofBool s.keyValid ∧ w.extractLsb' 1 3 = 0 ∧ w.extractLsb' 4 4 = 1 ∧
    (w.extractLsb' 8 8).toNat = s.inst.rounds ∧ (w.extractLsb' 16 8).toNat = s.inst.alpha ∧
    (w.extractLsb' 24 8).toNat = s.inst.beta ∧ (w.extractLsb' 32 8).toNat = s.inst.nMax ∧
    w.extractLsb' 40 24 = 0) ∧
  statusWord Config.standard false = 0x0000000403081B10 ∧ statusWord Config.standard true = 0x0000000403081B11

/-! ### Loading and clearing the key -/

/-- R103: KEYW loads the expanded key, or raises `InvalidKey` with `NW` and writes nothing. -/
def Obligations.KeywLoadsTheExpandedKeyOrRejects : Prop :=
  ∀ (key : List Word) (s : State),
    (2 ≤ key.length ∧ key.length ≤ s.inst.nMax →
      exec (.keyw key) s =
        .next { s with rk := expand s.inst key, keyValid := true, response := some (.ok .nothing) }) ∧
    (key.length < 2 ∨ s.inst.nMax < key.length →
      exec (.keyw key) s = .next { s with response := some (.err (.invalidKey key.length)) })

/-- R104, with R42's words (the order of the words is the spec's own reading, 92_eei_decisions.md D8): KEYB loads the
expansion of the words its bytes form, least significant byte first, and so does what KEYW does on those words; or it
raises `InvalidKey` with `NB` and writes nothing. -/
def Obligations.KeybLoadsTheLittleEndianKeyOrRejects : Prop :=
  ∀ (kb : List Byte) (s : State),
    (kb.length % 4 = 0 ∧ 2 ≤ kb.length / 4 ∧ kb.length / 4 ≤ s.inst.nMax →
      ∃ key : List Word, key.length = kb.length / 4 ∧
        (∀ j < key.length, (key.getD j 0).toNat =
          (kb.getD (4 * j) 0).toNat + (kb.getD (4 * j + 1) 0).toNat * 2 ^ 8 +
            (kb.getD (4 * j + 2) 0).toNat * 2 ^ 16 + (kb.getD (4 * j + 3) 0).toNat * 2 ^ 24) ∧
        exec (.keyb kb) s =
          .next { s with rk := expand s.inst key, keyValid := true, response := some (.ok .nothing) } ∧
        exec (.keyw key) s = exec (.keyb kb) s) ∧
    (kb.length % 4 ≠ 0 ∨ kb.length / 4 < 2 ∨ s.inst.nMax < kb.length / 4 →
      exec (.keyb kb) s = .next { s with response := some (.err (.invalidKey kb.length)) })

/-- "byte-array and equivalent int-array keys must produce bit-identical cipher state" (40_cipher.md section 2): for
every key KEYW accepts, KEYB on its bytes does what KEYW does on its words. -/
def Obligations.KeybOnTheBytesOfAKeyEqualsKeyw : Prop :=
  ∀ (key : List Word) (s : State), 2 ≤ key.length → key.length ≤ s.inst.nMax →
    exec (.keyb (key.flatMap fun k =>
      [k.extractLsb' 0 8, k.extractLsb' 8 8, k.extractLsb' 16 8, k.extractLsb' 24 8])) s = exec (.keyw key) s

/-- R105: KEYCLR zeroes `RK`, clears `KEY_VALID` and answers OK, with or without a key. -/
def Obligations.KeyclrRemovesTheKey : Prop :=
  ∀ s : State, exec .keyclr s =
    .next { s with rk := List.replicate s.inst.rounds 0, keyValid := false, response := some (.ok .nothing) }

/-- 20_memory.md section 3 ("KEYW, KEYB and KEYCLR are idempotent", marked derived by the spec): KEYW, KEYB and
KEYCLR are idempotent, a rejected load included. -/
def Obligations.KeyCommandsAreIdempotent : Prop :=
  ∀ (i : Instr) (s t : State), isKeyCommand i = true → exec i s = .next t → exec i t = .next t

/-- R102 (that the buffer is filled in array order is the spec's own reading, R101, 92_eei_decisions.md D7): the
schedule, iteration by iteration, over a buffer `S i` of `N-1` words. -/
def Obligations.ExpandFollowsTheSchedule : Prop :=
  ∀ (c : Config) (key : List Word), 2 ≤ key.length →
    ∃ S : Nat → List Word, S 0 = key.take (key.length - 1) ∧ (expand c key).length = c.rounds ∧
      (expand c key).getD 0 0 = key.getD (key.length - 1) 0 ∧
      ∀ i, i + 1 < c.rounds →
        S (i + 1) = (S i).set (i % (key.length - 1))
          ((ror32 ((S i).getD (i % (key.length - 1)) 0) c.alpha + (expand c key).getD i 0) ^^^ BitVec.ofNat 32 i) ∧
        (expand c key).getD (i + 1) 0 =
          rol32 ((expand c key).getD i 0) c.beta ^^^ (S (i + 1)).getD (i % (key.length - 1)) 0

/-! ### The cipher -/

/-- 00_scope.md R11: which bit of `x` each bit of a rotation is, at every legal amount; and that each rotation undoes
the other. -/
def Obligations.RotationsUndoEachOther : Prop :=
  ∀ (x : Word) (r : Nat), r ≤ 31 →
    (∀ i < 32, (rol32 x r).getLsbD i = x.getLsbD ((i + 32 - r) % 32) ∧
      (ror32 x r).getLsbD i = x.getLsbD ((i + r) % 32)) ∧
    ror32 (rol32 x r) r = x ∧ rol32 (ror32 x r) r = x ∧ ror32 x r = rol32 x ((32 - r) % 32)

/-- R106: `encrypt`, round by round. -/
def Obligations.EncryptFollowsTheRounds : Prop :=
  ∀ (c : Config) (rk : List Word) (v : Block),
    ∃ high low : Nat → Word, high 0 = v.extractLsb' 32 32 ∧ low 0 = v.extractLsb' 0 32 ∧
      (∀ i < rk.length,
        high (i + 1) = (ror32 (high i) c.alpha + low i) ^^^ rk.getD i 0 ∧
        low (i + 1) = rol32 (low i) c.beta ^^^ high (i + 1)) ∧
      encrypt c rk v = ((high rk.length).setWidth 64 <<< 32) ||| (low rk.length).setWidth 64

/-- R108: `decrypt`, round by round, the round keys in reverse order: `high n`, `low n` are the halves after the `n`
last round keys. -/
def Obligations.DecryptFollowsTheRounds : Prop :=
  ∀ (c : Config) (rk : List Word) (v : Block),
    ∃ high low : Nat → Word, high 0 = v.extractLsb' 32 32 ∧ low 0 = v.extractLsb' 0 32 ∧
      (∀ n < rk.length,
        low (n + 1) = ror32 (low n ^^^ high n) c.beta ∧
        high (n + 1) = rol32 ((high n ^^^ rk.getD (rk.length - 1 - n) 0) - low (n + 1)) c.alpha) ∧
      decrypt c rk v = ((high rk.length).setWidth 64 <<< 32) ||| (low rk.length).setWidth 64

/-- R110: `decrypt` and `encrypt` are inverse, for every instance, every `rk` and every block. -/
def Obligations.DecryptInvertsEncrypt : Prop :=
  ∀ (c : Config) (rk : List Word) (x : Block),
    decrypt c rk (encrypt c rk x) = x ∧ encrypt c rk (decrypt c rk x) = x

/-- R107, R109: ENC answers the ciphertext and DEC the plaintext when a key is loaded, and both raise `KeyNotLoaded`
when none is. -/
def Obligations.EncAndDecAnswer : Prop :=
  ∀ (data : Block) (s : State),
    (s.keyValid = true →
      exec (.enc data) s = .next { s with response := some (.ok (.data (encrypt s.inst s.rk data))) } ∧
      exec (.dec data) s = .next { s with response := some (.ok (.data (decrypt s.inst s.rk data))) }) ∧
    (s.keyValid = false →
      exec (.enc data) s = .next { s with response := some (.err .keyNotLoaded) } ∧
      exec (.dec data) s = .next { s with response := some (.err .keyNotLoaded) })

/-- 40_cipher.md section 3 ("Round trip through the commands", marked derived by the spec): ENC then DEC, and DEC
then ENC, return the block, as long as the key state of the second command is that of the first. -/
def Obligations.EncAndDecRoundTrip : Prop :=
  ∀ (s t : State) (x : Block), s.keyValid = true → t.inst = s.inst → t.rk = s.rk → t.keyValid = s.keyValid →
    (∃ y, exec (.enc x) s = .next { s with response := some (.ok (.data y)) } ∧
      exec (.dec y) t = .next { t with response := some (.ok (.data x)) }) ∧
    (∃ y, exec (.dec x) s = .next { s with response := some (.ok (.data y)) } ∧
      exec (.enc y) t = .next { t with response := some (.ok (.data x)) })

/-! ### The calendar -/

/-- 41_bitfield.md R130, R131, R133: the leap years and the lengths of the years and of the twelve months (those of the
months other than February the spec takes from general knowledge, 93_implementation_defined.md G3); and
`days_from_epoch` is the number of days of the years before, of the months before, and of the days before in the
month. -/
def Obligations.DayOffsetCountsTheDays : Prop :=
  (∀ y : Nat, (isLeap y = true ↔ y % 4 = 0 ∧ (y % 100 ≠ 0 ∨ y % 400 = 0)) ∧
    yearLen y = (if y % 4 = 0 ∧ (y % 100 ≠ 0 ∨ y % 400 = 0) then 366 else 365) ∧
    monthLen y 2 = (if y % 4 = 0 ∧ (y % 100 ≠ 0 ∨ y % 400 = 0) then 29 else 28) ∧
    monthLen y 1 = 31 ∧ monthLen y 3 = 31 ∧ monthLen y 4 = 30 ∧ monthLen y 5 = 31 ∧ monthLen y 6 = 30 ∧
    monthLen y 7 = 31 ∧ monthLen y 8 = 31 ∧ monthLen y 9 = 30 ∧ monthLen y 10 = 31 ∧ monthLen y 11 = 30 ∧
    monthLen y 12 = 31) ∧
  ∀ y m d : Nat, 1 ≤ m → m ≤ 12 →
    daysFromEpoch y m d = ((List.range y).map yearLen).sum +
      ((List.range (m - 1)).map fun k => monthLen y (k + 1)).sum + (d - 1)

/-- 41_bitfield.md section 1: on valid dates the day offset is strictly increasing in calendar order, and it takes
exactly the values 0 to 3652424, all of which fit in 22 bits. -/
def Obligations.DayOffsetOrdersTheValidDates : Prop :=
  (∀ y m d y' m' d' : Nat, validDate y m d = true → validDate y' m' d' = true →
    (y < y' ∨ (y = y' ∧ (m < m' ∨ (m = m' ∧ d < d')))) → daysFromEpoch y m d < daysFromEpoch y' m' d') ∧
  (∀ y m d : Nat, validDate y m d = true → daysFromEpoch y m d ≤ 3652424) ∧
  (∀ off : Nat, off ≤ 3652424 → ∃ y m d : Nat, validDate y m d = true ∧ daysFromEpoch y m d = off)

/-- R134: `date_from_days` gives the one date with that day offset, and its year is above 9999 exactly from 3652425
on. -/
def Obligations.DateFromDaysIsTheOneDate : Prop :=
  ∀ off : Nat, off < 2 ^ 22 →
    (1 ≤ (dateFromDays off).month ∧ (dateFromDays off).month ≤ 12 ∧ 1 ≤ (dateFromDays off).day ∧
      (dateFromDays off).day ≤ monthLen (dateFromDays off).year (dateFromDays off).month ∧
      daysFromEpoch (dateFromDays off).year (dateFromDays off).month (dateFromDays off).day = off) ∧
    (9999 < (dateFromDays off).year ↔ 3652425 ≤ off) ∧
    ∀ y m d : Nat, 1 ≤ m → m ≤ 12 → 1 ≤ d → d ≤ monthLen y m → daysFromEpoch y m d = off →
      dateFromDays off = ⟨y, m, d⟩

/-! ### The check code -/

/-- 41_bitfield.md section 2 (R136): the weighted sum over the 17 digits, modulo 11, through the table; the weights sum
to 100; and the two facts on `W[p]` and `MC[r]` that the spec marks as derived from its tables. -/
def Obligations.CheckCodeIsTheTableOfTheWeightedSum : Prop :=
  (∀ dig : List Nat, dig.length = 17 →
    checkCode dig = ([1, 0, 10, 9, 8, 7, 6, 5, 4, 3, 2] : List CheckCode).getD
      (((List.range 17).map fun p =>
        dig.getD p 0 * [7, 9, 10, 5, 8, 4, 2, 1, 6, 3, 7, 9, 10, 5, 8, 4, 2].getD p 0).sum % 11) 0) ∧
  weights.sum = 100 ∧
  (∀ p < 17, weights.getD p 0 = 2 ^ (17 - p) % 11) ∧
  (∀ r < 11, (remainderCodes.getD r 0).val = (12 - r) % 11)

/-- 00_scope.md section 6 ("used to detect transcription errors"): a change of any one digit changes the check code.
-/
def Obligations.OneWrongDigitChangesTheCheckCode : Prop :=
  ∀ (dig : List Nat) (p d : Nat), dig.length = 17 → (∀ x ∈ dig, x ≤ 9) → p < 17 → d ≤ 9 → d ≠ dig.getD p 0 →
    checkCode (dig.set p d) ≠ checkCode dig

/-- 41_bitfield.md R135, 30_encoding.md section 5: 17 digits, each 0 to 9, that spell the fields at widths 6, 4, 2, 2
and 3, most significant digit first. -/
def Obligations.DigitsSpellTheFields : Prop :=
  ∀ region y m d seq : Nat, region ≤ 999999 → y ≤ 9999 → m ≤ 99 → d ≤ 99 → seq ≤ 999 →
    (digits region y m d seq).length = 17 ∧ (∀ x ∈ digits region y m d seq, x ≤ 9) ∧
    (digits region y m d seq).foldl (fun n x => 10 * n + x) 0 =
      region * 10 ^ 11 + y * 10 ^ 7 + m * 10 ^ 5 + d * 10 ^ 3 + seq

/-! ### PACK and UNPACK -/

/-- R140: the checks of PACK in their order, each with its error, and the packed word when all pass; the state is
unchanged in every case. -/
def Obligations.PackChecksInOrderAndPacks : Prop :=
  ∀ (r : BitVec 20) (y : BitVec 14) (m : BitVec 4) (d : BitVec 5) (q : BitVec 10) (s : State),
    exec (.pack r y m d q) s = .next { s with response := some (
      if 999999 < r.toNat then .err (.outOfRange .regionCode r.toNat)
      else if 9999 < y.toNat then .err (.outOfRange .year y.toNat)
      else if m.toNat < 1 ∨ 12 < m.toNat then .err (.outOfRange .month m.toNat)
      else if d.toNat < 1 then .err (.outOfRange .day d.toNat)
      else if 999 < q.toNat then .err (.outOfRange .sequence q.toNat)
      else if monthLen y.toNat m.toNat < d.toNat then .err (.invalidDate (decide (m = 2 ∧ d = 29)) d)
      else .ok (.data ((r.setWidth 64 <<< 36) |||
        (BitVec.ofNat 64 (daysFromEpoch y.toNat m.toNat d.toNat) <<< 14) ||| (q.setWidth 64 <<< 4) ||| 1))) }

/-- 30_encoding.md section 3 (the construction and its largest word, marked derived by the spec): a word PACK answers
holds the region, the day offset, the sequence and version 1 in their bits, has the reserved bits zero, and is at
most 0x00F423FDEED23E71. -/
def Obligations.PackedWordHoldsItsFields : Prop :=
  ∀ (r : BitVec 20) (y : BitVec 14) (m : BitVec 4) (d : BitVec 5) (q : BitVec 10) (s : State) (v : Block),
    exec (.pack r y m d q) s = .next { s with response := some (.ok (.data v)) } →
    v.extractLsb' 56 8 = 0 ∧ v.extractLsb' 36 20 = r ∧
    (v.extractLsb' 14 22).toNat = daysFromEpoch y.toNat m.toNat d.toNat ∧ v.extractLsb' 4 10 = q ∧
    v.extractLsb' 0 4 = 1 ∧ v.toNat ≤ 0x00F423FDEED23E71

/-- 41_bitfield.md section 3 ("Properties of PACK", marked derived by the spec): PACK is injective on the operands it
accepts, and it accepts exactly the legal fields. -/
def Obligations.PackIsInjective : Prop :=
  (∀ (r : BitVec 20) (y : BitVec 14) (m : BitVec 4) (d : BitVec 5) (q : BitVec 10) (s : State),
    legalFields ⟨r, y, m, d, q⟩ = true ↔
      ∃ v, exec (.pack r y m d q) s = .next { s with response := some (.ok (.data v)) }) ∧
  ∀ (r r' : BitVec 20) (y y' : BitVec 14) (m m' : BitVec 4) (d d' : BitVec 5) (q q' : BitVec 10) (s t : State)
    (v : Block),
    exec (.pack r y m d q) s = .next { s with response := some (.ok (.data v)) } →
    exec (.pack r' y' m' d' q') t = .next { t with response := some (.ok (.data v)) } →
    r = r' ∧ y = y' ∧ m = m' ∧ d = d' ∧ q = q'

/-- R145: the checks of UNPACK in their order, each with its error, and the fields with the recomputed check code
when all pass; the state is unchanged in every case. -/
def Obligations.UnpackChecksInOrderAndUnpacks : Prop :=
  ∀ (v : Block) (s : State), ∃ date : CalendarDate, date = dateFromDays (v.extractLsb' 14 22).toNat ∧
    exec (.unpack v) s = .next { s with response := some (
      if v.extractLsb' 0 4 ≠ 1 then .err (.unsupportedVersion (v.extractLsb' 0 4))
      else if v.extractLsb' 56 8 ≠ 0 then .err (.reservedBitsNotZero (v.extractLsb' 56 8))
      else if 9999 < date.year then .err (.outOfRange .year date.year)
      else if 999999 < (v.extractLsb' 36 20).toNat then
        .err (.invalidBitField .regionCode (v.extractLsb' 36 20).toNat)
      else if 999 < (v.extractLsb' 4 10).toNat then .err (.invalidBitField .sequence (v.extractLsb' 4 10).toNat)
      else .ok (.fields
        ⟨v.extractLsb' 36 20, BitVec.ofNat 14 date.year, BitVec.ofNat 4 date.month, BitVec.ofNat 5 date.day,
          v.extractLsb' 4 10⟩
        (checkCode (digits (v.extractLsb' 36 20).toNat date.year date.month date.day (v.extractLsb' 4 10).toNat)))) }

/-- 41_bitfield.md section 4 ("What UNPACK does not detect", marked derived by the spec): UNPACK answers OK for
exactly the words of version 1 with reserved byte 0, day offset at most 3652424, region at most 999999 and sequence
at most 999, whether or not PACK produced them. -/
def Obligations.UnpackAcceptsExactlyTheLegalWords : Prop :=
  ∀ (v : Block) (s : State),
    (∃ f check, exec (.unpack v) s = .next { s with response := some (.ok (.fields f check)) }) ↔
      (v.extractLsb' 0 4 = 1 ∧ v.extractLsb' 56 8 = 0 ∧ (v.extractLsb' 14 22).toNat ≤ 3652424 ∧
        (v.extractLsb' 36 20).toNat ≤ 999999 ∧ (v.extractLsb' 4 10).toNat ≤ 999)

/-- 41_bitfield.md section 4 ("Round trips", marked derived by the spec): PACK then UNPACK returns the fields with
their check code, and UNPACK then PACK returns the word; the two commands may run in different states. -/
def Obligations.PackAndUnpackRoundTrip : Prop :=
  (∀ (r : BitVec 20) (y : BitVec 14) (m : BitVec 4) (d : BitVec 5) (q : BitVec 10) (s t : State) (v : Block),
    exec (.pack r y m d q) s = .next { s with response := some (.ok (.data v)) } →
    exec (.unpack v) t = .next { t with response := some (.ok (.fields ⟨r, y, m, d, q⟩
      (checkCode (digits r.toNat y.toNat m.toNat d.toNat q.toNat)))) }) ∧
  (∀ (v : Block) (s t : State) (f : Fields) (check : CheckCode),
    exec (.unpack v) s = .next { s with response := some (.ok (.fields f check)) } →
    exec (.pack f.region f.year f.month f.day f.seq) t = .next { t with response := some (.ok (.data v)) })

/-! ### ENCODE and DECODE -/

/-- R171: on legal operands ENCODE answers the packed word, encrypted exactly when a key is loaded; on operands that
are not legal PACK raises an error, and ENCODE raises the same one, with a key and without one. -/
def Obligations.EncodePacksThenEncrypts : Prop :=
  ∀ (r : BitVec 20) (y : BitVec 14) (m : BitVec 4) (d : BitVec 5) (q : BitVec 10) (s : State) (p : Block),
    p = (r.setWidth 64 <<< 36) ||| (BitVec.ofNat 64 (daysFromEpoch y.toNat m.toNat d.toNat) <<< 14) |||
      (q.setWidth 64 <<< 4) ||| 1 →
    (legalFields ⟨r, y, m, d, q⟩ = true →
      exec (.pack r y m d q) s = .next { s with response := some (.ok (.data p)) } ∧
      (s.keyValid = true →
        exec (.encode r y m d q) s = .next { s with response := some (.ok (.data (encrypt s.inst s.rk p))) }) ∧
      (s.keyValid = false → exec (.encode r y m d q) s = .next { s with response := some (.ok (.data p)) })) ∧
    (legalFields ⟨r, y, m, d, q⟩ = false →
      ∃ e, exec (.pack r y m d q) s = .next { s with response := some (.err e) } ∧
        exec (.encode r y m d q) s = .next { s with response := some (.err e) })

/-- R173: DECODE answers what UNPACK answers for the decrypted word when a key is loaded, and for the word itself
when none is. -/
def Obligations.DecodeAnswersWhatUnpackAnswers : Prop :=
  ∀ (data : Block) (s : State), ∃ w answer, (s.keyValid = true → w = decrypt s.inst s.rk data) ∧
    (s.keyValid = false → w = data) ∧ exec (.unpack w) s = .next { s with response := some answer } ∧
    exec (.decode data) s = .next { s with response := some answer }

/-- R173 on a word whose decrypted (or bypassed) form is legal: DECODE answers its fields and check code. -/
def Obligations.DecodeAnswersTheFields : Prop :=
  ∀ (data w : Block) (s : State) (date : CalendarDate),
    (s.keyValid = true → w = decrypt s.inst s.rk data) → (s.keyValid = false → w = data) →
    w.extractLsb' 0 4 = 1 → w.extractLsb' 56 8 = 0 → (w.extractLsb' 14 22).toNat ≤ 3652424 →
    (w.extractLsb' 36 20).toNat ≤ 999999 → (w.extractLsb' 4 10).toNat ≤ 999 →
    date = dateFromDays (w.extractLsb' 14 22).toNat →
    exec (.decode data) s = .next { s with response := some (.ok (.fields
      ⟨w.extractLsb' 36 20, BitVec.ofNat 14 date.year, BitVec.ofNat 4 date.month, BitVec.ofNat 5 date.day,
        w.extractLsb' 4 10⟩
      (checkCode (digits (w.extractLsb' 36 20).toNat date.year date.month date.day (w.extractLsb' 4 10).toNat)))) }

/-- 42_composer.md ("Equivalences", marked derived by the spec): with a key loaded, ENCODE is PACK then ENC and
DECODE is DEC then UNPACK, errors included; with none, ENCODE is PACK and DECODE is UNPACK. -/
def Obligations.ComposedCommandsEqualTheirTwoCommands : Prop :=
  ∀ (r : BitVec 20) (y : BitVec 14) (m : BitVec 4) (d : BitVec 5) (q : BitVec 10) (x : Block) (s : State),
    (s.keyValid = true →
      (∀ p, exec (.pack r y m d q) s = .next { s with response := some (.ok (.data p)) } →
        exec (.encode r y m d q) s = exec (.enc p) s) ∧
      (∀ e, exec (.pack r y m d q) s = .next { s with response := some (.err e) } →
        exec (.encode r y m d q) s = .next { s with response := some (.err e) }) ∧
      (∃ w, exec (.dec x) s = .next { s with response := some (.ok (.data w)) } ∧
        exec (.decode x) s = exec (.unpack w) s)) ∧
    (s.keyValid = false →
      exec (.encode r y m d q) s = exec (.pack r y m d q) s ∧ exec (.decode x) s = exec (.unpack x) s)

/-- 42_composer.md ("Round trip", marked derived by the spec): whatever ENCODE answers OK, DECODE turns back into the
fields with their check code, with a key and without one, as long as the key state of DECODE is that of ENCODE. -/
def Obligations.EncodeThenDecodeReturnsTheNumber : Prop :=
  ∀ (r : BitVec 20) (y : BitVec 14) (m : BitVec 4) (d : BitVec 5) (q : BitVec 10) (s t : State) (c : Block),
    t.inst = s.inst → t.rk = s.rk → t.keyValid = s.keyValid →
    exec (.encode r y m d q) s = .next { s with response := some (.ok (.data c)) } →
    exec (.decode c) t = .next { t with response := some (.ok (.fields ⟨r, y, m, d, q⟩
      (checkCode (digits r.toNat y.toNat m.toNat d.toNat q.toNat)))) }

/-- 60_exceptions.md section 3 ("Layers", its last sentence, marked derived by the spec): the errors of ENCODE and
DECODE are all of `LAYER` 0. -/
def Obligations.ComposedCommandsReportCodecErrorsOnly : Prop :=
  ∀ (i : Instr) (s t : State) (e : BlockError),
    ((∃ r y m d q, i = .encode r y m d q) ∨ (∃ x, i = .decode x)) →
    exec i s = .next t → t.response = some (.err e) →
    e.kind.layer = 0 ∧ e.kind ≠ .invalidKey ∧ e.kind ≠ .keyNotLoaded

/-! ### The whole machine -/

/-- 00_scope.md section 5 (R13): every command answers in every state, with exactly one response. -/
def Obligations.EveryCommandAnswers : Prop :=
  ∀ (i : Instr) (s : State), ∃ t answer, exec i s = .next t ∧ t.response = some answer

/-- R223: a command that raises changes nothing but the response it delivers, whose result fields are all zero. -/
def Obligations.AnErrorChangesNothing : Prop :=
  ∀ (i : Instr) (s t : State) (e : BlockError), exec i s = .next t → t.response = some (.err e) →
    t = { s with response := some (.err e) } ∧
    (Response.err e).record =
      { status := e.kind.code, layer := e.kind.layer, detail := e.detail, value := e.value, data := 0, region := 0,
        year := 0, month := 0, day := 0, seq := 0, check := 0 }

/-- 10_state.md section 5 ("Invariants a model may rely on" (c), marked derived by the spec), at `exec`: every
command but KEYW, KEYB, KEYCLR changes nothing but the response. -/
def Obligations.OnlyKeyCommandsWriteState : Prop :=
  ∀ (i : Instr) (s t : State), isKeyCommand i = false → exec i s = .next t → t = { s with response := t.response }

/-- 10_state.md section 5 ("Invariants a model may rely on" (d), marked derived by the spec), at `step`: `RK` and
`KEY_VALID` change only by a KEYW, KEYB or KEYCLR command or by a reset, and the instance constants never change. -/
def Obligations.KeyStateChangesOnlyByKeyCommandsAndReset : Prop :=
  ∀ s t : State, step s = .next t →
    t.inst = s.inst ∧
    ((t.rk = s.rk ∧ t.keyValid = s.keyValid) ∨
      (∃ w i rest, s.stream = .command w :: rest ∧ decode w = .ok i ∧ isKeyCommand i = true) ∨
      (∃ w rest, s.stream = .commandCutByReset w :: rest) ∨ (∃ rest, s.stream = .reset :: rest) ∨
      (∃ rest, s.stream = .powerLoss false :: rest))

/-- 10_state.md section 3 (R28): no command reads a previous response. -/
def Obligations.NoCommandReadsAnEarlierResponse : Prop :=
  ∀ (i : Instr) (s : State) (previous : Option Response), exec i { s with response := previous } = exec i s

/-- 10_state.md section 5 ("Invariants a model may rely on" (a), marked derived by the spec): with no key loaded no
command's answer depends on `RK`. -/
def Obligations.RoundKeysAreUnreadWithoutAKey : Prop :=
  ∀ (i : Instr) (s : State) (other : List Word), s.keyValid = false →
    ∃ t t', exec i s = .next t ∧ exec i { s with rk := other } = .next t' ∧ t.response = t'.response ∧
      t.keyValid = t'.keyValid

/-- 10_state.md section 1 (R21): the answer of every command but ENC, DEC, ENCODE and DECODE is the same whatever
`RK` holds. -/
def Obligations.RoundKeysReachOnlyTheCipherCommands : Prop :=
  ∀ (i : Instr) (s : State) (other : List Word), mayReadRoundKeys i = false →
    ∃ t t', exec i s = .next t ∧ exec i { s with rk := other } = .next t' ∧ t.response = t'.response ∧
      t.keyValid = t'.keyValid

/-- 10_state.md sections 4 and 5: the invariant holds at reset, for every instance. -/
def Obligations.InvariantHoldsAtReset : Prop := ∀ c : Config, Inv (State.resetOf c)

/-- 10_state.md section 5 ("Invariants a model may rely on" (b), marked derived by the spec): `RK` has `T` words, is
zero while no key is loaded, and is an expanded key while one is; every step keeps this. -/
def Obligations.EveryStepKeepsTheInvariant : Prop := ∀ s t : State, Inv s → step s = .next t → Inv t

/-- 70_reset_and_hazards.md sections 3 and 4: a host that keeps its duties never stops the block, however long it
goes on. -/
def Obligations.AnObedientHostNeverStopsTheBlock : Prop :=
  ∀ (n : Nat) (s : State), HostObeys s → Inv s →
    ∃ t, Host.Core.run Sys2Proof.core n s = .next t ∧ HostObeys t ∧ Inv t

/-- 10_state.md section 1 ("Immutability"): however many commands other than KEYW, KEYB and KEYCLR the host issues in
a row, `RK` and `KEY_VALID` stay as they are, and each command is taken. -/
def Obligations.TheKeyLivesUntilTheNextKeyCommand : Prop :=
  ∀ (commands : List Instr) (s : State) (rest : List HostInput), s.wasReset = true →
    (∀ i ∈ commands, i.wellFormed = true ∧ isKeyCommand i = false) →
    s.stream = commands.map (fun i => .command (encode i)) ++ rest →
    ∃ t, Host.Core.run Sys2Proof.core commands.length s = .next t ∧ t.rk = s.rk ∧ t.keyValid = s.keyValid ∧
      t.inst = s.inst ∧ t.stream = rest

/-- 30_encoding.md section 6 (R80 to R85): the flat record of a response, kind by kind, written out: every field that
is not named is 0. An OK record carries its result, and an error record its `STATUS`, `LAYER`, `DETAIL` and `VALUE`;
so OK has status 0 and no error fields, and an error of the block a status of 4 to 11 and no result fields. The codes
and layers of the three kinds that only the host's functions raise stand at the end. -/
def Obligations.ResponseRecordsSeparateOkFromError : Prop :=
  (∀ zero : ResponseRecord, zero = ⟨0, 0, 0, 0, 0, 0, 0, 0, 0, 0, 0⟩ →
    (Response.ok .nothing).record = zero ∧
    (∀ d, (Response.ok (.data d)).record = { zero with data := d }) ∧
    (∀ (f : Fields) (check : CheckCode), (Response.ok (.fields f check)).record =
      { zero with
        region := f.region, year := f.year, month := f.month, day := f.day, seq := f.seq
        check := BitVec.ofNat 4 check.val }) ∧
    (∀ day, (Response.err (.invalidDate true day)).record =
        { zero with status := 4, detail := 1, value := day.setWidth 64 } ∧
      (Response.err (.invalidDate false day)).record = { zero with status := 4, value := day.setWidth 64 }) ∧
    (∀ ver, (Response.err (.unsupportedVersion ver)).record =
      { zero with status := 5, value := ver.setWidth 64 }) ∧
    (∀ byte, (Response.err (.reservedBitsNotZero byte)).record =
      { zero with status := 6, value := byte.setWidth 64 }) ∧
    (∀ (n : BitVec 3) (which : FieldId), (n, which) ∈ [((1 : BitVec 3), FieldId.regionCode), (2, .year), (3, .month),
        (4, .day), (5, .sequence)] → ∀ value : Nat,
      (Response.err (.invalidBitField which value)).record =
        { zero with status := 7, detail := n, value := BitVec.ofNat 64 value } ∧
      (Response.err (.outOfRange which value)).record =
        { zero with status := 9, detail := n, value := BitVec.ofNat 64 value }) ∧
    (∀ count, (Response.err (.invalidKey count)).record =
      { zero with status := 8, layer := 1, value := BitVec.ofNat 64 count }) ∧
    (Response.err .keyNotLoaded).record = { zero with status := 10, layer := 1 } ∧
    (∀ op, (Response.err (.illegalCommand op)).record = { zero with status := 11, value := op.setWidth 64 })) ∧
  (∀ r : Result, (Response.ok r).record.status = 0 ∧ (Response.ok r).record.layer = 0 ∧
    (Response.ok r).record.detail = 0 ∧ (Response.ok r).record.value = 0) ∧
  (∀ e : BlockError, 4 ≤ (Response.err e).record.status.toNat ∧ (Response.err e).record.status.toNat ≤ 11 ∧
    (Response.err e).record.data = 0 ∧ (Response.err e).record.region = 0 ∧ (Response.err e).record.year = 0 ∧
    (Response.err e).record.month = 0 ∧ (Response.err e).record.day = 0 ∧ (Response.err e).record.seq = 0 ∧
    (Response.err e).record.check = 0) ∧
  (∀ (code : BitVec 4) (kind : ErrorKind), (code, kind) ∈ [((1 : BitVec 4), ErrorKind.invalidLength),
      (2, .invalidCharacter), (3, .invalidCheckCode)] → kind.code = code ∧ kind.layer = 0)

/-! ### The host-side string functions -/

/-- 43_host_string_functions.md (`format`; the agreement with PACK is marked derived by the spec): on the block's
operand fields, `format` succeeds exactly when PACK answers OK, and otherwise PACK raises the same kind with the same
`DETAIL`. -/
def Obligations.FormatAgreesWithPack : Prop :=
  ∀ (r : BitVec 20) (y : BitVec 14) (m : BitVec 4) (d : BitVec 5) (q : BitVec 10) (s : State),
    (∃ v n, exec (.pack r y m d q) s = .next { s with response := some (.ok (.data v)) } ∧
      formatFields r.toNat y.toNat m.toNat d.toNat q.toNat = .ok n) ∨
    (∃ e h, exec (.pack r y m d q) s = .next { s with response := some (.err e) } ∧
      formatFields r.toNat y.toNat m.toNat d.toNat q.toNat = .error h ∧ e.kind = h.kind ∧ e.detail = h.detail)

/-- 43_host_string_functions.md (`parse`, steps 1 to 6): the failures and the result of `parse` in the order of its
steps; the class of the last character is tested before it is compared (90_conflicts.md C3). -/
def Obligations.ParseFailsInStepOrder : Prop :=
  ∀ (str u : List Char) (last : Char) (y m d : Nat), u = upperString str → last = u.getD 17 '0' →
    y = decimal ((u.drop 6).take 4) → m = decimal ((u.drop 10).take 2) → d = decimal ((u.drop 12).take 2) →
    (str.length ≠ 18 → parse str = .error .invalidLength) ∧
    (str.length = 18 → ((∃ c ∈ u.take 17, isDigitChar c = false) ∨ (isDigitChar last = false ∧ last ≠ 'X')) →
      parse str = .error .invalidCharacter) ∧
    (str.length = 18 → (∀ c ∈ u.take 17, isDigitChar c = true) → (isDigitChar last = true ∨ last = 'X') →
      (last ≠ checkChar (checkCode ((u.take 17).map digitValue)) → parse str = .error .invalidCheckCode) ∧
      (last = checkChar (checkCode ((u.take 17).map digitValue)) → validDate y m d = false →
        parse str = .error (.invalidDate (decide (m = 2 ∧ d = 29)) d)) ∧
      (last = checkChar (checkCode ((u.take 17).map digitValue)) → validDate y m d = true →
        parse str = .ok ⟨decimal (u.take 6), y, m, d, decimal ((u.drop 14).take 3),
          checkCode ((u.take 17).map digitValue)⟩))

/-- 43_host_string_functions.md (`parse`, and "The canonical string"): a number that `parse` accepts is within the
ranges and a valid date, carries its own check code, and its canonical string is the upper-cased input. -/
def Obligations.ParsedNumberIsLegalAndCanonical : Prop :=
  ∀ (str : List Char) (n : IdentityNumber), parse str = .ok n →
    n.region ≤ 999999 ∧ n.seq ≤ 999 ∧ validDate n.year n.month n.day = true ∧
    n.check = checkCode (digits n.region n.year n.month n.day n.seq) ∧ canonicalString n = upperString str

/-- 43_host_string_functions.md ("The host's two flows", the round trip marked derived by the spec): for every string
`parse` accepts, ENCODE of its fields answers a word, and the string formed from DECODE's answer to that word is the
upper-cased input; with a key and without one. -/
def Obligations.StringRoundTripThroughTheBlock : Prop :=
  ∀ (str : List Char) (n : IdentityNumber) (s t : State), parse str = .ok n →
    t.inst = s.inst → t.rk = s.rk → t.keyValid = s.keyValid →
    ∃ c f check, exec (encodeCommand n) s = .next { s with response := some (.ok (.data c)) } ∧
      exec (.decode c) t = .next { t with response := some (.ok (.fields f check)) } ∧
      canonicalString (identityOf f check) = upperString str
end

