-- ==== Sys2Proof/Laws/Bits.lean ====
section
/-! SUPPORT. Strings of bits and the numbers they spell; fields and elements of a command word. -/

namespace Sys2Proof

@[simp] theorem length_bitsOf (n v : Nat) : (bitsOf n v).length = n := by
  induction n with
  | zero => rfl
  | succ n ih => simp [bitsOf, ih]

theorem natOf_lt (bs : List Bool) : natOf bs < 2 ^ bs.length := by
  induction bs with
  | nil => simp [natOf]
  | cons b bs ih =>
    simp only [natOf, List.length_cons, Nat.pow_succ]
    cases b <;> simp <;> omega

theorem natOf_bitsOf (n v : Nat) : natOf (bitsOf n v) = v % 2 ^ n := by
  induction n with
  | zero => simp [bitsOf, natOf, Nat.mod_one]
  | succ n ih =>
    have h2 : v / 2 ^ n % 2 < 2 := Nat.mod_lt _ (by decide)
    simp only [bitsOf, natOf, length_bitsOf, ih, Nat.mod_pow_succ, Nat.testBit_eq_decide_div_mod_eq]
    obtain h | h : v / 2 ^ n % 2 = 0 ∨ v / 2 ^ n % 2 = 1 := by omega
    · simp [h]
    · simp [h, Nat.add_comm]

theorem natOf_append (a b : List Bool) : natOf (a ++ b) = natOf a * 2 ^ b.length + natOf b := by
  induction a with
  | nil => simp [natOf]
  | cons x xs ih =>
    simp only [List.cons_append, natOf, ih, List.length_append, Nat.pow_add]
    ring

/-- Only the low bits of a number are written. -/
theorem bitsOf_add_natOf (bs : List Bool) (hi : Nat) : bitsOf bs.length (hi * 2 ^ bs.length + natOf bs) = bs := by
  induction bs generalizing hi with
  | nil => rfl
  | cons b bs ih =>
    have hlt := natOf_lt bs
    have e : hi * 2 ^ (bs.length + 1) + (b.toNat * 2 ^ bs.length + natOf bs) =
        (2 * hi + b.toNat) * 2 ^ bs.length + natOf bs := by rw [Nat.pow_succ]; ring
    have htop : ((2 * hi + b.toNat) * 2 ^ bs.length + natOf bs).testBit bs.length = b := by
      rw [Nat.testBit_eq_decide_div_mod_eq, Nat.add_comm, Nat.add_mul_div_right _ _ (Nat.two_pow_pos _),
        Nat.div_eq_of_lt hlt]
      cases b <;> simp
    simp only [List.length_cons, bitsOf, natOf]
    rw [e, ih, htop]

theorem bitsOf_natOf (bs : List Bool) : bitsOf bs.length (natOf bs) = bs := by
  simpa using bitsOf_add_natOf bs 0

theorem field_toNat (n : Nat) (bs : List Bool) : (field n bs).toNat = natOf (bs.take n) := by
  have h := natOf_lt (bs.take n)
  have hl : (bs.take n).length ≤ n := by simp
  simp only [field, BitVec.toNat_ofNat]
  exact Nat.mod_eq_of_lt (lt_of_lt_of_le h (Nat.pow_le_pow_right (by decide) hl))

/-- Reading a field back from its own bits. -/
@[simp] theorem field_bitsOf_append {n : Nat} (x : BitVec n) (rest : List Bool) :
    field n (bitsOf n x.toNat ++ rest) = x := by
  apply BitVec.eq_of_toNat_eq
  rw [field_toNat, List.take_left' (length_bitsOf _ _), natOf_bitsOf, Nat.mod_eq_of_lt x.isLt]

@[simp] theorem field_bitsOf {n : Nat} (x : BitVec n) : field n (bitsOf n x.toNat) = x := by
  simpa using field_bitsOf_append x []

/-- Reading a count back from its own bits. -/
theorem field_count_append (n k : Nat) (hk : k < 2 ^ n) (rest : List Bool) :
    (field n (bitsOf n k ++ rest)).toNat = k := by
  rw [field_toNat, List.take_left' (length_bitsOf _ _), natOf_bitsOf, Nat.mod_eq_of_lt hk]

@[simp] theorem drop_bitsOf_append (n v : Nat) (rest : List Bool) : (bitsOf n v ++ rest).drop n = rest :=
  List.drop_left' (length_bitsOf n v)

/-- A field's own bits, written back. -/
theorem bitsOf_field (n : Nat) (bs : List Bool) (h : n ≤ bs.length) : bitsOf n (field n bs).toNat = bs.take n := by
  have hl : (bs.take n).length = n := by simp; omega
  rw [field_toNat]
  conv_lhs => rw [← hl]
  rw [show natOf (List.take (List.take n bs).length bs) = natOf (bs.take n) by rw [hl]]
  exact bitsOf_natOf _

@[simp] theorem encodeElements_nil (n : Nat) : encodeElements ([] : List (BitVec n)) = [] := rfl

@[simp] theorem encodeElements_cons {n : Nat} (x : BitVec n) (xs : List (BitVec n)) :
    encodeElements (x :: xs) = bitsOf n x.toNat ++ encodeElements xs := rfl

@[simp] theorem length_encodeElements {n : Nat} (xs : List (BitVec n)) :
    (encodeElements xs).length = n * xs.length := by
  induction xs with
  | nil => rfl
  | cons x xs ih => simp [ih, Nat.mul_add, Nat.add_comm]

@[simp] theorem length_elements (n k : Nat) (bs : List Bool) : (elements n k bs).length = k := by
  induction k generalizing bs with
  | zero => rfl
  | succ k ih => simp [elements, ih]

/-- Reading elements back from their own bits. -/
theorem elements_encodeElements {n : Nat} (xs : List (BitVec n)) :
    elements n xs.length (encodeElements xs) = xs := by
  induction xs with
  | nil => rfl
  | cons x xs ih => simp [elements, ih]

/-- Elements' own bits, written back. -/
theorem encodeElements_elements (n k : Nat) (bs : List Bool) (h : bs.length = n * k) :
    encodeElements (elements n k bs) = bs := by
  induction k generalizing bs with
  | zero => exact (List.length_eq_zero_iff.mp (by simpa using h)).symm
  | succ k ih =>
    have hn : n ≤ bs.length := by rw [h, Nat.mul_succ]; omega
    have hd : (bs.drop n).length = n * k := by rw [List.length_drop, h, Nat.mul_succ]; omega
    simp only [elements, encodeElements_cons, ih _ hd, bitsOf_field n bs hn, List.take_append_drop]

@[simp] theorem length_encodeF (r : BitVec 20) (y : BitVec 14) (m : BitVec 4) (d : BitVec 5) (q : BitVec 10) :
    (encodeF r y m d q).length = 53 := by
  simp [encodeF]

/-- What the length check answers (R61): it gives the command exactly when the length is the format's. -/
theorem ofLength_eq_ok {want : Nat} {rest : List Bool} {i j : Instr} :
    ofLength want rest i = .ok j ↔ rest.length = want ∧ i = j := by
  unfold ofLength
  split
  · simp; omega
  · split
    · simp; omega
    · simp; omega

end Sys2Proof
end

