-- ==== Sys2Proof/Laws/Calendar.lean ====
section
/-! SUPPORT. The arithmetic of the calendar (spec/41_bitfield.md R130 to R134): years and months tile the day
offsets, and the day offset orders the dates. -/

namespace Sys2Proof.Machine

/-- The day offset of January 1 of year `y`. -/
def yearStart (y : Nat) : Nat := 365 * y + leapsBefore y

theorem isLeap_iff (y : Nat) : isLeap y = true ↔ y % 4 = 0 ∧ (y % 100 ≠ 0 ∨ y % 400 = 0) := by
  simp [isLeap]

theorem yearLen_cases (y : Nat) :
    (yearLen y = 366 ∧ y % 4 = 0 ∧ (y % 100 ≠ 0 ∨ y % 400 = 0)) ∨
    (yearLen y = 365 ∧ ¬(y % 4 = 0 ∧ (y % 100 ≠ 0 ∨ y % 400 = 0))) := by
  unfold yearLen
  split
  · next h => exact .inl ⟨rfl, (isLeap_iff y).mp h⟩
  · next h => exact .inr ⟨rfl, fun h' => h ((isLeap_iff y).mpr h')⟩

theorem leapsBefore_zero : leapsBefore 0 = 0 := rfl

theorem leapsBefore_pos {y : Nat} (h : 1 ≤ y) :
    leapsBefore y = (y - 1) / 4 - (y - 1) / 100 + (y - 1) / 400 + 1 := by
  simp [leapsBefore]; omega

/-- The leap years among `0, …, y`: one more when `y` is one. -/
theorem leapsBefore_succ (y : Nat) : leapsBefore (y + 1) + 365 = leapsBefore y + yearLen y := by
  rw [leapsBefore_pos (by omega : 1 ≤ y + 1), Nat.add_sub_cancel]
  rcases y with _ | a
  · rfl
  · rw [leapsBefore_pos (by omega : 1 ≤ a + 1), Nat.add_sub_cancel, Nat.succ_div (a := a) (b := 4),
      Nat.succ_div (a := a) (b := 100), Nat.succ_div (a := a) (b := 400)]
    have h1 : 4 * (a / 4) ≤ a ∧ a < 4 * (a / 4) + 4 := by omega
    have h2 : 100 * (a / 100) ≤ a ∧ a < 100 * (a / 100) + 100 := by omega
    have h3 : 400 * (a / 400) ≤ a ∧ a < 400 * (a / 400) + 400 := by omega
    have h4 : a / 100 ≤ a / 4 := by omega
    simp only [Nat.dvd_iff_mod_eq_zero]
    have k1 : (a + 1) % 100 = 0 → (a + 1) % 4 = 0 := by omega
    have k2 : (a + 1) % 400 = 0 → (a + 1) % 100 = 0 := by omega
    generalize a / 4 = p at *
    generalize a / 100 = q at *
    generalize a / 400 = r at *
    clear h1 h2 h3
    rcases yearLen_cases (a + 1) with ⟨h, h'⟩ | ⟨h, h'⟩ <;> rw [h] <;>
      (by_cases e1 : (a + 1) % 4 = 0 <;> by_cases e2 : (a + 1) % 100 = 0 <;> by_cases e3 : (a + 1) % 400 = 0 <;>
        simp [e1, e2, e3] at * <;> omega)

/-- Each year has its own length (R131, R133). -/
theorem yearStart_succ (y : Nat) : yearStart (y + 1) = yearStart y + yearLen y := by
  have := leapsBefore_succ y
  unfold yearStart
  omega

theorem yearStart_mono {y y' : Nat} (h : y < y') : yearStart y + yearLen y ≤ yearStart y' := by
  obtain ⟨k, rfl⟩ : ∃ k, y' = y + 1 + k := ⟨y' - y - 1, by omega⟩
  clear h
  induction k with
  | zero => exact (yearStart_succ y).ge
  | succ k ih =>
    have := yearStart_succ (y + 1 + k)
    rw [show y + 1 + (k + 1) = y + 1 + k + 1 by omega]
    omega

/-- Every cycle of 400 years has 146097 days (R134). -/
theorem yearStart_cycle (q r : Nat) : yearStart (400 * q + r) = 146097 * q + yearStart r := by
  unfold yearStart
  rcases Nat.eq_zero_or_pos r with rfl | hr
  · rcases Nat.eq_zero_or_pos q with rfl | hq
    · rfl
    · rw [leapsBefore_pos (by omega : 1 ≤ 400 * q + 0), leapsBefore_zero]; omega
  · rw [leapsBefore_pos (by omega : 1 ≤ 400 * q + r), leapsBefore_pos hr]; omega

theorem monthLen_pos {y m : Nat} (h1 : 1 ≤ m) (h2 : m ≤ 12) : 28 ≤ monthLen y m := by
  interval_cases m <;> simp [monthLen]
  split <;> simp

theorem monthLen_le {y m : Nat} (h1 : 1 ≤ m) (h2 : m ≤ 12) : monthLen y m ≤ 31 := by
  interval_cases m <;> simp [monthLen]
  split <;> simp

theorem daysBeforeMonth_succ (y : Nat) {m : Nat} (h : 1 ≤ m) :
    daysBeforeMonth y (m + 1) = daysBeforeMonth y m + monthLen y m := by
  obtain ⟨k, rfl⟩ : ∃ k, m = k + 1 := ⟨m - 1, by omega⟩
  rfl

/-- The twelve months fill the year (R131). -/
theorem daysBeforeMonth_thirteen (y : Nat) : daysBeforeMonth y 13 = yearLen y := by
  simp only [daysBeforeMonth, monthLen, yearLen]
  split <;> rfl

theorem daysBeforeMonth_mono (y : Nat) {m m' : Nat} (h : 1 ≤ m) (hm : m < m') :
    daysBeforeMonth y m + monthLen y m ≤ daysBeforeMonth y m' := by
  obtain ⟨k, rfl⟩ : ∃ k, m' = m + 1 + k := ⟨m' - m - 1, by omega⟩
  clear hm
  induction k with
  | zero => exact (daysBeforeMonth_succ y h).ge
  | succ k ih =>
    have := daysBeforeMonth_succ y (by omega : 1 ≤ m + 1 + k)
    rw [show m + 1 + (k + 1) = m + 1 + k + 1 by omega]
    omega

theorem daysBeforeMonth_le_yearLen (y : Nat) {m : Nat} (h1 : 1 ≤ m) (h2 : m ≤ 12) :
    daysBeforeMonth y m + monthLen y m ≤ yearLen y :=
  (daysBeforeMonth_mono y h1 (by omega : m < 13)).trans (daysBeforeMonth_thirteen y).le

theorem daysFromEpoch_eq (y m d : Nat) : daysFromEpoch y m d = yearStart y + daysBeforeMonth y m + (d - 1) := rfl

/-- A date of year `y` lies in the days of year `y`. -/
theorem daysFromEpoch_in_year {y m d : Nat} (h1 : 1 ≤ m) (h2 : m ≤ 12) (h3 : 1 ≤ d) (h4 : d ≤ monthLen y m) :
    yearStart y ≤ daysFromEpoch y m d ∧ daysFromEpoch y m d < yearStart y + yearLen y := by
  have := daysBeforeMonth_le_yearLen y h1 h2
  rw [daysFromEpoch_eq]
  omega

/-- The leap years before a year of the first century of a cycle: every fourth, from year 0 on. -/
theorem yearStart_first_century {yc : Nat} (h : yc ≤ 99) : yearStart yc = 365 * yc + (yc + 3) / 4 := by
  unfold yearStart
  rcases Nat.eq_zero_or_pos yc with rfl | hy
  · rfl
  · rw [leapsBefore_pos hy]; omega

/-- In the other three centuries of a cycle the first year is no leap year. -/
theorem yearStart_later_century {c yc : Nat} (h1 : 1 ≤ c) (h3 : c ≤ 3) (h : yc ≤ 99) :
    yearStart (100 * c + yc) = 36525 + 36524 * (c - 1) + 365 * yc + (yc - 1) / 4 := by
  unfold yearStart
  rw [leapsBefore_pos (by omega)]
  interval_cases c <;> omega

theorem yearLen_first_century {yc : Nat} (h : yc ≤ 99) : yearLen yc = if yc % 4 = 0 then 366 else 365 := by
  rcases yearLen_cases yc with ⟨e, h'⟩ | ⟨e, h'⟩ <;> rw [e] <;> split <;> omega

theorem yearLen_later_century {c yc : Nat} (h1 : 1 ≤ c) (h3 : c ≤ 3) (h : yc ≤ 99) :
    yearLen (100 * c + yc) = if yc % 4 = 0 ∧ yc ≠ 0 then 366 else 365 := by
  rcases yearLen_cases (100 * c + yc) with ⟨e, h'⟩ | ⟨e, h'⟩ <;> rw [e] <;> interval_cases c <;> split <;> omega

/-- R134: the year and the day that the first century of a cycle gives. -/
theorem yearOfCentury_first {rc : Nat} (h : rc < 36525) :
    (yearOfCentury 0 rc).1 ≤ 99 ∧ yearStart (yearOfCentury 0 rc).1 + (yearOfCentury 0 rc).2 = rc ∧
      (yearOfCentury 0 rc).2 < yearLen (yearOfCentury 0 rc).1 := by
  have e : yearOfCentury 0 rc = if rc % 1461 < 366 then (4 * (rc / 1461), rc % 1461)
      else (4 * (rc / 1461) + (1 + (rc % 1461 - 366) / 365), (rc % 1461 - 366) % 365) := by simp [yearOfCentury]
  rw [e]
  split
  · have hy : 4 * (rc / 1461) ≤ 99 := by omega
    dsimp only
    rw [yearStart_first_century hy, yearLen_first_century hy]
    refine ⟨hy, by omega, ?_⟩
    split <;> omega
  · have hy : 4 * (rc / 1461) + (1 + (rc % 1461 - 366) / 365) ≤ 99 := by omega
    dsimp only
    rw [yearStart_first_century hy, yearLen_first_century hy]
    refine ⟨hy, by omega, ?_⟩
    split <;> omega

/-- R134: the year and the day that another century of a cycle gives. -/
theorem yearOfCentury_later {c rc : Nat} (h1 : 1 ≤ c) (h3 : c ≤ 3) (h : rc < 36524) :
    (yearOfCentury c rc).1 ≤ 99 ∧
      yearStart (100 * c + (yearOfCentury c rc).1) + (yearOfCentury c rc).2 = 36525 + 36524 * (c - 1) + rc ∧
      (yearOfCentury c rc).2 < yearLen (100 * c + (yearOfCentury c rc).1) := by
  have hc : c ≠ 0 := by omega
  have e : yearOfCentury c rc = if rc < 1460 then (rc / 365, rc % 365)
      else if (rc - 1460) % 1461 < 366 then (4 + 4 * ((rc - 1460) / 1461), (rc - 1460) % 1461)
      else (4 + 4 * ((rc - 1460) / 1461) + (1 + ((rc - 1460) % 1461 - 366) / 365),
        ((rc - 1460) % 1461 - 366) % 365) := by simp [yearOfCentury, hc, h1]
  rw [e]
  split
  · have hy : rc / 365 ≤ 99 := by omega
    dsimp only
    rw [yearStart_later_century h1 h3 hy, yearLen_later_century h1 h3 hy]
    refine ⟨hy, by omega, ?_⟩
    split <;> omega
  · split
    · have hy : 4 + 4 * ((rc - 1460) / 1461) ≤ 99 := by omega
      dsimp only
      rw [yearStart_later_century h1 h3 hy, yearLen_later_century h1 h3 hy]
      refine ⟨hy, by omega, ?_⟩
      split <;> omega
    · have hy : 4 + 4 * ((rc - 1460) / 1461) + (1 + ((rc - 1460) % 1461 - 366) / 365) ≤ 99 := by omega
      dsimp only
      rw [yearStart_later_century h1 h3 hy, yearLen_later_century h1 h3 hy]
      refine ⟨hy, by omega, ?_⟩
      split <;> omega

/-- R134: the year of a day offset holds that offset, and what is left is a day of that year. -/
theorem yearOfOffset_spec (off : Nat) :
    yearStart (yearOfOffset off).1 + (yearOfOffset off).2 = off ∧
      (yearOfOffset off).2 < yearLen (yearOfOffset off).1 := by
  have leap : ∀ q r, yearLen (400 * q + r) = yearLen r := by
    intro q r
    rcases yearLen_cases (400 * q + r) with ⟨e, h'⟩ | ⟨e, h'⟩ <;>
      rcases yearLen_cases r with ⟨e', h''⟩ | ⟨e', h''⟩ <;> omega
  simp only [yearOfOffset]
  rw [Nat.add_assoc, yearStart_cycle, leap]
  by_cases hr : off % 146097 < 36525
  · obtain ⟨-, h2, h3⟩ := yearOfCentury_first hr
    simp only [hr, if_true, Nat.mul_zero, Nat.zero_add]
    exact ⟨by omega, h3⟩
  · obtain ⟨-, h2, h3⟩ := yearOfCentury_later (c := 1 + (off % 146097 - 36525) / 36524)
      (rc := (off % 146097 - 36525) % 36524) (by omega) (by omega) (by omega)
    simp only [hr, if_false]
    exact ⟨by omega, h3⟩

/-- R134: the month loop stops at the month that holds the day. -/
theorem monthOfDay_spec (y : Nat) : ∀ (fuel m doy : Nat), 1 ≤ m → m + fuel = 12 →
    daysBeforeMonth y m + doy < yearLen y →
    m ≤ (monthOfDay y fuel m doy).1 ∧ (monthOfDay y fuel m doy).1 ≤ 12 ∧ 1 ≤ (monthOfDay y fuel m doy).2 ∧
      (monthOfDay y fuel m doy).2 ≤ monthLen y (monthOfDay y fuel m doy).1 ∧
      daysBeforeMonth y (monthOfDay y fuel m doy).1 + ((monthOfDay y fuel m doy).2 - 1) = daysBeforeMonth y m + doy := by
  intro fuel
  induction fuel with
  | zero =>
    intro m doy h1 h2 h3
    have hm : m = 12 := by omega
    subst hm
    have := daysBeforeMonth_thirteen y
    rw [daysBeforeMonth_succ y (by decide : 1 ≤ 12)] at this
    simp only [monthOfDay]
    omega
  | succ fuel ih =>
    intro m doy h1 h2 h3
    simp only [monthOfDay]
    by_cases h : doy < monthLen y m
    · simp only [h, if_true]
      omega
    · simp only [h, if_false]
      have hs := daysBeforeMonth_succ y h1
      obtain ⟨a, b, c, d, e⟩ := ih (m + 1) (doy - monthLen y m) (by omega) (by omega) (by omega)
      exact ⟨by omega, b, c, d, by omega⟩

/-- R134: `date_from_days` gives a date of the calendar with that day offset. -/
theorem dateFromDays_spec (off : Nat) :
    1 ≤ (dateFromDays off).month ∧ (dateFromDays off).month ≤ 12 ∧ 1 ≤ (dateFromDays off).day ∧
      (dateFromDays off).day ≤ monthLen (dateFromDays off).year (dateFromDays off).month ∧
      daysFromEpoch (dateFromDays off).year (dateFromDays off).month (dateFromDays off).day = off := by
  obtain ⟨h1, h2⟩ := yearOfOffset_spec off
  have h0 : daysBeforeMonth (yearOfOffset off).1 1 = 0 := rfl
  obtain ⟨a, b, c, d, e⟩ := monthOfDay_spec (yearOfOffset off).1 11 1 (yearOfOffset off).2 (by decide) (by decide)
    (by omega)
  refine ⟨a, b, c, d, ?_⟩
  rw [daysFromEpoch_eq]
  simp only [dateFromDays]
  omega

/-- Two dates with the same day offset are the same date. -/
theorem daysFromEpoch_injective {y m d y' m' d' : Nat} (hm : 1 ≤ m ∧ m ≤ 12) (hd : 1 ≤ d ∧ d ≤ monthLen y m)
    (hm' : 1 ≤ m' ∧ m' ≤ 12) (hd' : 1 ≤ d' ∧ d' ≤ monthLen y' m')
    (h : daysFromEpoch y m d = daysFromEpoch y' m' d') : y = y' ∧ m = m' ∧ d = d' := by
  have i1 := daysFromEpoch_in_year hm.1 hm.2 hd.1 hd.2
  have i2 := daysFromEpoch_in_year hm'.1 hm'.2 hd'.1 hd'.2
  obtain hy | rfl | hy := Nat.lt_trichotomy y y'
  · have := yearStart_mono hy; omega
  · simp only [daysFromEpoch_eq] at h
    obtain hlt | rfl | hlt := Nat.lt_trichotomy m m'
    · have := daysBeforeMonth_mono y hm.1 hlt; omega
    · omega
    · have := daysBeforeMonth_mono y hm'.1 hlt; omega
  · have := yearStart_mono hy; omega

theorem yearStart_tenThousand : yearStart 10000 = 3652425 := rfl

theorem validDate_iff (y m d : Nat) :
    validDate y m d = true ↔ y ≤ 9999 ∧ 1 ≤ m ∧ m ≤ 12 ∧ 1 ≤ d ∧ d ≤ monthLen y m := by
  simp [validDate]

end Sys2Proof.Machine
end

