-- ==== Sys2Proof/Laws/Encoding.lean ====
section
/-! SUPPORT. The decoder on a word cut into its opcode and its operand bits, format by format. -/

namespace Sys2Proof

/-- A word is decoded by its first four bits. -/
theorem decode_opcode_append (op : BitVec 4) (rest : List Bool) :
    decode (bitsOf 4 op.toNat ++ rest) = decodeOperands op rest := by
  simp [decode]

theorem decodeW_encode (key : List Word) (h : key.length ≤ 255) :
    decodeW (bitsOf 8 key.length ++ encodeElements key) = .ok (.keyw key) := by
  have hc : (field 8 (bitsOf 8 key.length ++ encodeElements key)).toNat = key.length :=
    field_count_append 8 key.length (by omega) _
  simp only [decodeW, hc, drop_bitsOf_append, elements_encodeElements, ofLength, List.length_append, length_bitsOf,
    length_encodeElements]
  simp

theorem decodeB_encode (kb : List Byte) (h : kb.length ≤ 65535) :
    decodeB (bitsOf 16 kb.length ++ encodeElements kb) = .ok (.keyb kb) := by
  have hc : (field 16 (bitsOf 16 kb.length ++ encodeElements kb)).toNat = kb.length :=
    field_count_append 16 kb.length (by omega) _
  simp only [decodeB, hc, drop_bitsOf_append, elements_encodeElements, ofLength, List.length_append, length_bitsOf,
    length_encodeElements]
  simp

theorem decodeD_encode (mk : Block → Instr) (d : Block) : decodeD mk (bitsOf 64 d.toNat) = .ok (mk d) := by
  simp [decodeD, ofLength]

theorem decodeF_encode (mk : BitVec 20 → BitVec 14 → BitVec 4 → BitVec 5 → BitVec 10 → Instr)
    (r : BitVec 20) (y : BitVec 14) (m : BitVec 4) (d : BitVec 5) (q : BitVec 10) :
    decodeF mk (encodeF r y m d q) = .ok (mk r y m d q) := by
  have h34 : (encodeF r y m d q).drop 34 = bitsOf 4 m.toNat ++ (bitsOf 5 d.toNat ++ bitsOf 10 q.toNat) := by
    rw [show 34 = 20 + 14 by rfl, ← List.drop_drop, encodeF, drop_bitsOf_append, drop_bitsOf_append]
  have h38 : (encodeF r y m d q).drop 38 = bitsOf 5 d.toNat ++ bitsOf 10 q.toNat := by
    rw [show 38 = 34 + 4 by rfl, ← List.drop_drop, h34, drop_bitsOf_append]
  have h43 : (encodeF r y m d q).drop 43 = bitsOf 10 q.toNat := by
    rw [show 43 = 38 + 5 by rfl, ← List.drop_drop, h38, drop_bitsOf_append]
  have h20 : (encodeF r y m d q).drop 20 =
      bitsOf 14 y.toNat ++ (bitsOf 4 m.toNat ++ (bitsOf 5 d.toNat ++ bitsOf 10 q.toNat)) := by
    rw [encodeF, drop_bitsOf_append]
  have h0 : field 20 (encodeF r y m d q) = r := field_bitsOf_append r _
  simp only [decodeF, ofLength, length_encodeF, h0, h20, h34, h38, h43, field_bitsOf_append, field_bitsOf]
  simp

end Sys2Proof
end

