-- ==== Sys2Proof/Laws/State.lean ====
section
/-! SUPPORT. One lemma per field per update of the state, each true by rfl, so that no later proof unfolds a record
update. -/

namespace Sys2Proof.Machine

@[simp] theorem respond_inst (r : Response) (s : State) : (respond r s).inst = s.inst := rfl
@[simp] theorem respond_rk (r : Response) (s : State) : (respond r s).rk = s.rk := rfl
@[simp] theorem respond_keyValid (r : Response) (s : State) : (respond r s).keyValid = s.keyValid := rfl
@[simp] theorem respond_wasReset (r : Response) (s : State) : (respond r s).wasReset = s.wasReset := rfl
@[simp] theorem respond_stream (r : Response) (s : State) : (respond r s).stream = s.stream := rfl
@[simp] theorem respond_response (r : Response) (s : State) : (respond r s).response = some r := rfl

@[simp] theorem raise_inst (e : BlockError) (s : State) : (raise e s).inst = s.inst := rfl
@[simp] theorem raise_rk (e : BlockError) (s : State) : (raise e s).rk = s.rk := rfl
@[simp] theorem raise_keyValid (e : BlockError) (s : State) : (raise e s).keyValid = s.keyValid := rfl
@[simp] theorem raise_wasReset (e : BlockError) (s : State) : (raise e s).wasReset = s.wasReset := rfl
@[simp] theorem raise_stream (e : BlockError) (s : State) : (raise e s).stream = s.stream := rfl
@[simp] theorem raise_response (e : BlockError) (s : State) : (raise e s).response = some (.err e) := rfl

@[simp] theorem storeKey_inst (rk : List Word) (s : State) : (storeKey rk s).inst = s.inst := rfl
@[simp] theorem storeKey_rk (rk : List Word) (s : State) : (storeKey rk s).rk = rk := rfl
@[simp] theorem storeKey_keyValid (rk : List Word) (s : State) : (storeKey rk s).keyValid = true := rfl
@[simp] theorem storeKey_wasReset (rk : List Word) (s : State) : (storeKey rk s).wasReset = s.wasReset := rfl
@[simp] theorem storeKey_stream (rk : List Word) (s : State) : (storeKey rk s).stream = s.stream := rfl
@[simp] theorem storeKey_response (rk : List Word) (s : State) : (storeKey rk s).response = s.response := rfl

@[simp] theorem clearKey_inst (s : State) : (clearKey s).inst = s.inst := rfl
@[simp] theorem clearKey_rk (s : State) : (clearKey s).rk = List.replicate s.inst.rounds 0 := rfl
@[simp] theorem clearKey_keyValid (s : State) : (clearKey s).keyValid = false := rfl
@[simp] theorem clearKey_wasReset (s : State) : (clearKey s).wasReset = s.wasReset := rfl
@[simp] theorem clearKey_stream (s : State) : (clearKey s).stream = s.stream := rfl
@[simp] theorem clearKey_response (s : State) : (clearKey s).response = s.response := rfl

@[simp] theorem resetBlock_inst (s : State) : (resetBlock s).inst = s.inst := rfl
@[simp] theorem resetBlock_rk (s : State) : (resetBlock s).rk = List.replicate s.inst.rounds 0 := rfl
@[simp] theorem resetBlock_keyValid (s : State) : (resetBlock s).keyValid = false := rfl
@[simp] theorem resetBlock_wasReset (s : State) : (resetBlock s).wasReset = true := rfl
@[simp] theorem resetBlock_stream (s : State) : (resetBlock s).stream = s.stream := rfl
@[simp] theorem resetBlock_response (s : State) : (resetBlock s).response = none := rfl

@[simp] theorem consume_inst (rest : List HostInput) (s : State) : (consume rest s).inst = s.inst := rfl
@[simp] theorem consume_rk (rest : List HostInput) (s : State) : (consume rest s).rk = s.rk := rfl
@[simp] theorem consume_keyValid (rest : List HostInput) (s : State) : (consume rest s).keyValid = s.keyValid := rfl
@[simp] theorem consume_wasReset (rest : List HostInput) (s : State) : (consume rest s).wasReset = s.wasReset := rfl
@[simp] theorem consume_stream (rest : List HostInput) (s : State) : (consume rest s).stream = rest := rfl
@[simp] theorem consume_response (rest : List HostInput) (s : State) : (consume rest s).response = s.response := rfl

@[simp] theorem silent_inst (s : State) : (silent s).inst = s.inst := rfl
@[simp] theorem silent_rk (s : State) : (silent s).rk = s.rk := rfl
@[simp] theorem silent_keyValid (s : State) : (silent s).keyValid = s.keyValid := rfl
@[simp] theorem silent_wasReset (s : State) : (silent s).wasReset = s.wasReset := rfl
@[simp] theorem silent_stream (s : State) : (silent s).stream = s.stream := rfl
@[simp] theorem silent_response (s : State) : (silent s).response = none := rfl

@[simp] theorem present_inst (nbits w : Nat) (s : State) : (present nbits w s).inst = s.inst := rfl
@[simp] theorem present_rk (nbits w : Nat) (s : State) : (present nbits w s).rk = s.rk := rfl
@[simp] theorem present_keyValid (nbits w : Nat) (s : State) : (present nbits w s).keyValid = s.keyValid := rfl
@[simp] theorem present_wasReset (nbits w : Nat) (s : State) : (present nbits w s).wasReset = true := rfl
@[simp] theorem present_stream (nbits w : Nat) (s : State) : (present nbits w s).stream = .command (tableWord nbits w) :: s.stream := rfl
@[simp] theorem present_response (nbits w : Nat) (s : State) : (present nbits w s).response = s.response := rfl

@[simp] theorem resetOf_inst (c : Config) : (State.resetOf c).inst = c := rfl
@[simp] theorem resetOf_rk (c : Config) : (State.resetOf c).rk = List.replicate c.rounds 0 := rfl
@[simp] theorem resetOf_keyValid (c : Config) : (State.resetOf c).keyValid = false := rfl
@[simp] theorem resetOf_wasReset (c : Config) : (State.resetOf c).wasReset = true := rfl
@[simp] theorem resetOf_stream (c : Config) : (State.resetOf c).stream = [] := rfl
@[simp] theorem resetOf_response (c : Config) : (State.resetOf c).response = none := rfl

theorem resetBlock_eq (s : State) : resetBlock s = { State.resetOf s.inst with stream := s.stream } := rfl

theorem withFetchWord_eq (s : State) (nbits w : Nat) : s.withFetchWord nbits w = present nbits w s := rfl

end Sys2Proof.Machine
end

