-- ==== Sys2Proof/Laws/Ops.lean ====
section
/-! SUPPORT. One lemma per shared operation that says all it can do; later proofs cite these and unfold nothing. -/

namespace Sys2Proof.Machine

@[simp] theorem finish_ok (r : Result) (s : State) : finish (.ok r) s = .next (respond (.ok r) s) := rfl

@[simp] theorem finish_error (e : BlockError) (s : State) : finish (.error e) s = .next (respond (.err e) s) := rfl

/-- A command that ends in `finish` answers something and changes nothing else. -/
theorem finish_answers (r : Except BlockError Result) (s : State) :
    ∃ answer, finish r s = .next (respond answer s) := by
  cases r with
  | ok res => exact ⟨_, finish_ok res s⟩
  | error e => exact ⟨_, finish_error e s⟩

/-- What loading a key can do: store the expanded key and answer OK, or answer `InvalidKey` and write nothing. -/
theorem loadKey_cases (accepted : Bool) (count : Nat) (key : List Word) (s : State) :
    (accepted = true ∧
      loadKey accepted count key s = .next (respond (.ok .nothing) (storeKey (expand s.inst key) s))) ∨
    (accepted = false ∧ loadKey accepted count key s = .next (respond (.err (.invalidKey count)) s)) := by
  cases accepted with
  | false => exact .inr ⟨rfl, rfl⟩
  | true => exact .inl ⟨rfl, rfl⟩

theorem length_wordsOfBytes : ∀ kb : List Byte, (wordsOfBytes kb).length = kb.length / 4
  | [] => rfl
  | [_] => by simp [wordsOfBytes]
  | [_, _] => by simp [wordsOfBytes]
  | [_, _, _] => by simp [wordsOfBytes]
  | b0 :: b1 :: b2 :: b3 :: rest => by
    simp only [wordsOfBytes, List.length_cons, length_wordsOfBytes rest]
    omega

/-! Each command as the shared operation it ends in. -/

theorem exec_stat (s : State) : exec .stat s = finish (.ok (.data (statusWord s.inst s.keyValid))) s := rfl

theorem exec_keyw (key : List Word) (s : State) : exec (.keyw key) s =
    loadKey (decide (2 ≤ key.length ∧ key.length ≤ s.inst.nMax)) key.length key s := rfl

theorem exec_keyb (kb : List Byte) (s : State) : exec (.keyb kb) s =
    loadKey (decide (kb.length % 4 = 0 ∧ 2 ≤ kb.length / 4 ∧ kb.length / 4 ≤ s.inst.nMax)) kb.length
      (wordsOfBytes kb) s := rfl

theorem exec_keyclr (s : State) : exec .keyclr s = .next (respond (.ok .nothing) (clearKey s)) := rfl

theorem exec_enc (data : Block) (s : State) : exec (.enc data) s =
    finish (if s.keyValid then .ok (.data (encrypt s.inst s.rk data)) else .error .keyNotLoaded) s := rfl

theorem exec_dec (data : Block) (s : State) : exec (.dec data) s =
    finish (if s.keyValid then .ok (.data (decrypt s.inst s.rk data)) else .error .keyNotLoaded) s := rfl

theorem exec_pack (r : BitVec 20) (y : BitVec 14) (m : BitVec 4) (d : BitVec 5) (q : BitVec 10) (s : State) :
    exec (.pack r y m d q) s = finish ((packChecked ⟨r, y, m, d, q⟩).map .data) s := rfl

theorem exec_unpack (data : Block) (s : State) : exec (.unpack data) s = finish (unpackChecked data) s := rfl

theorem exec_encode (r : BitVec 20) (y : BitVec 14) (m : BitVec 4) (d : BitVec 5) (q : BitVec 10) (s : State) :
    exec (.encode r y m d q) s =
      finish ((packChecked ⟨r, y, m, d, q⟩).map fun p => .data (encryptIfKeyed s p)) s := rfl

theorem exec_decode (data : Block) (s : State) :
    exec (.decode data) s = finish (unpackChecked (decryptIfKeyed s data)) s := rfl

/-- Everything a command can do: answer and change nothing else, load a key of accepted length, or clear the key. -/
theorem exec_cases (i : Instr) (s : State) :
    (∃ answer, exec i s = .next (respond answer s)) ∨
    (isKeyCommand i = true ∧ ∃ key : List Word, 2 ≤ key.length ∧ key.length ≤ s.inst.nMax ∧
      exec i s = .next (respond (.ok .nothing) (storeKey (expand s.inst key) s))) ∨
    (isKeyCommand i = true ∧ exec i s = .next (respond (.ok .nothing) (clearKey s))) := by
  cases i with
  | keyw key =>
    rw [exec_keyw]
    obtain ⟨ha, h⟩ | ⟨-, h⟩ := loadKey_cases (decide (2 ≤ key.length ∧ key.length ≤ s.inst.nMax)) key.length key s
    · obtain ⟨h2, hn⟩ := of_decide_eq_true ha
      exact .inr (.inl ⟨rfl, key, h2, hn, h⟩)
    · exact .inl ⟨_, h⟩
  | keyb kb =>
    rw [exec_keyb]
    obtain ⟨ha, h⟩ | ⟨-, h⟩ := loadKey_cases
      (decide (kb.length % 4 = 0 ∧ 2 ≤ kb.length / 4 ∧ kb.length / 4 ≤ s.inst.nMax)) kb.length (wordsOfBytes kb) s
    · obtain ⟨-, h2, hn⟩ := of_decide_eq_true ha
      rw [← length_wordsOfBytes] at h2 hn
      exact .inr (.inl ⟨rfl, _, h2, hn, h⟩)
    · exact .inl ⟨_, h⟩
  | keyclr => exact .inr (.inr ⟨rfl, exec_keyclr s⟩)
  | stat => rw [exec_stat]; exact .inl (finish_answers _ s)
  | enc data => rw [exec_enc]; exact .inl (finish_answers _ s)
  | dec data => rw [exec_dec]; exact .inl (finish_answers _ s)
  | pack r y m d q => rw [exec_pack]; exact .inl (finish_answers _ s)
  | unpack data => rw [exec_unpack]; exact .inl (finish_answers _ s)
  | encode r y m d q => rw [exec_encode]; exact .inl (finish_answers _ s)
  | decode data => rw [exec_decode]; exact .inl (finish_answers _ s)

/-- The port, one lemma per form of input. -/
@[simp] theorem acceptInput_reset (s : State) : acceptInput .reset s = .done (.next (resetBlock s)) := rfl

@[simp] theorem acceptInput_cut (w : CommandWord) (s : State) :
    acceptInput (.commandCutByReset w) s = .done (.next (resetBlock s)) := rfl

@[simp] theorem acceptInput_early (w : CommandWord) (s : State) :
    acceptInput (.earlyCommand w) s = .done (.refused .presentedEarly) := rfl

@[simp] theorem acceptInput_retained (s : State) : acceptInput (.powerLoss true) s = .done (.next (silent s)) := rfl

@[simp] theorem acceptInput_lost (s : State) : acceptInput (.powerLoss false) s = .done (.next (resetBlock s)) := rfl

@[simp] theorem acceptInput_command (w : CommandWord) (s : State) :
    acceptInput (.command w) s = acceptCommand w s := rfl

theorem acceptCommand_before_reset (w : CommandWord) (s : State) (h : s.wasReset = false) :
    acceptCommand w s = .done (.refused .beforeFirstReset) := by
  simp [acceptCommand, h]

/-- What a command word at the port of a reset block comes to. -/
theorem acceptCommand_cases (w : CommandWord) (s : State) (h : s.wasReset = true) :
    (∃ i, decode w = .ok i ∧ acceptCommand w s = .run i s) ∨
    (∃ op, decode w = .error (.reserved op) ∧
      acceptCommand w s = .done (.next (respond (.err (.illegalCommand op)) s))) ∨
    (∃ why, decode w = .error why ∧ (∀ op, why ≠ .reserved op) ∧
      acceptCommand w s = .done (.fault (.malformedCommand why))) := by
  cases hd : decode w with
  | ok i => exact .inl ⟨i, rfl, by simp [acceptCommand, h, hd]⟩
  | error e =>
    cases e with
    | reserved op => exact .inr (.inl ⟨op, rfl, by simp [acceptCommand, h, hd, raise]⟩)
    | noOpcode => exact .inr (.inr ⟨_, rfl, by simp, by simp [acceptCommand, h, hd]⟩)
    | truncated => exact .inr (.inr ⟨_, rfl, by simp, by simp [acceptCommand, h, hd]⟩)
    | trailingBits => exact .inr (.inr ⟨_, rfl, by simp, by simp [acceptCommand, h, hd]⟩)

/-- The outcome of an accepted input. -/
def Accepted.outcome : Accepted → StepOutcome
  | .run i t => exec i t
  | .done o => o

theorem step_nil (s : State) (h : s.stream = []) : step s = .next (silent s) := by
  simp [step, accept, h]

theorem step_cons (s : State) {input : HostInput} {rest : List HostInput} (h : s.stream = input :: rest) :
    step s = (acceptInput input (consume rest s)).outcome := by
  simp only [step, accept, h]
  rfl

end Sys2Proof.Machine
end

