-- ==== Sys2Proof/Laws/Packed.lean ====
section
/-! SUPPORT. The packed word (spec/30_encoding.md R70, R71): its fields tile the 64 bits, and the checks of PACK and
UNPACK (spec/41_bitfield.md R140, R145) as one case each. -/

namespace Sys2Proof.Machine

/-- The five fields tile a block (R70: "every bit belongs to exactly one field"). -/
theorem block_toNat (v : Block) : v.toNat = (reservedOf v).toNat * 2 ^ 56 + (regionOf v).toNat * 2 ^ 36 +
    (offsetOf v).toNat * 2 ^ 14 + (seqOf v).toNat * 2 ^ 4 + (versionOf v).toNat := by
  have := v.isLt
  simp only [reservedOf, regionOf, offsetOf, seqOf, versionOf, BitVec.extractLsb'_toNat, Nat.shiftRight_eq_div_pow]
  omega

/-- Blocks with the same five fields are the same block. -/
theorem block_ext {v w : Block} (h1 : reservedOf v = reservedOf w) (h2 : regionOf v = regionOf w)
    (h3 : offsetOf v = offsetOf w) (h4 : seqOf v = seqOf w) (h5 : versionOf v = versionOf w) : v = w := by
  apply BitVec.eq_of_toNat_eq
  rw [block_toNat v, block_toNat w, h1, h2, h3, h4, h5]

/-- The packed word as a number: the four fields do not overlap (R71). -/
theorem packedWord_toNat (region : BitVec 20) {off : Nat} (seq : BitVec 10) (h : off < 2 ^ 22) :
    (packedWord region off seq).toNat = region.toNat * 2 ^ 36 + off * 2 ^ 14 + seq.toNat * 2 ^ 4 + 1 := by
  have hr := region.isLt
  have hq := seq.isLt
  have e1 : seq.toNat <<< 4 ||| 1 = seq.toNat * 2 ^ 4 + 1 := by
    rw [← Nat.shiftLeft_add_eq_or_of_lt (by decide), Nat.shiftLeft_eq]
  have e2 : off <<< 14 ||| (seq.toNat * 2 ^ 4 + 1) = off * 2 ^ 14 + (seq.toNat * 2 ^ 4 + 1) := by
    rw [← Nat.shiftLeft_add_eq_or_of_lt (by omega), Nat.shiftLeft_eq]
  have e3 : region.toNat <<< 36 ||| (off * 2 ^ 14 + (seq.toNat * 2 ^ 4 + 1)) =
      region.toNat * 2 ^ 36 + (off * 2 ^ 14 + (seq.toNat * 2 ^ 4 + 1)) := by
    rw [← Nat.shiftLeft_add_eq_or_of_lt (by omega), Nat.shiftLeft_eq]
  have k1 : (region.setWidth 64 <<< 36).toNat = region.toNat <<< 36 := by
    simp [BitVec.toNat_shiftLeft, Nat.shiftLeft_eq]; omega
  have k2 : (BitVec.ofNat 64 off <<< 14).toNat = off <<< 14 := by
    simp [BitVec.toNat_shiftLeft, Nat.shiftLeft_eq]; omega
  have k3 : (seq.setWidth 64 <<< 4).toNat = seq.toNat <<< 4 := by
    simp [BitVec.toNat_shiftLeft, Nat.shiftLeft_eq]; omega
  have k4 : (formatVersion.setWidth 64 : Block).toNat = 1 := rfl
  simp only [packedWord, BitVec.toNat_or, k1, k2, k3, k4]
  rw [Nat.or_assoc, Nat.or_assoc, e1, e2, e3]
  omega

section
variable (region : BitVec 20) {off : Nat} (seq : BitVec 10) (h : off < 2 ^ 22)
include h

theorem regionOf_packedWord : regionOf (packedWord region off seq) = region := by
  apply BitVec.eq_of_toNat_eq
  have hr := region.isLt
  have hq := seq.isLt
  rw [regionOf, BitVec.extractLsb'_toNat, Nat.shiftRight_eq_div_pow, packedWord_toNat region seq h]
  omega

theorem offsetOf_packedWord : (offsetOf (packedWord region off seq)).toNat = off := by
  have hr := region.isLt
  have hq := seq.isLt
  rw [offsetOf, BitVec.extractLsb'_toNat, Nat.shiftRight_eq_div_pow, packedWord_toNat region seq h]
  omega

theorem seqOf_packedWord : seqOf (packedWord region off seq) = seq := by
  apply BitVec.eq_of_toNat_eq
  have hr := region.isLt
  have hq := seq.isLt
  rw [seqOf, BitVec.extractLsb'_toNat, Nat.shiftRight_eq_div_pow, packedWord_toNat region seq h]
  omega

theorem versionOf_packedWord : versionOf (packedWord region off seq) = 1 := by
  apply BitVec.eq_of_toNat_eq
  have hr := region.isLt
  have hq := seq.isLt
  rw [versionOf, BitVec.extractLsb'_toNat, Nat.shiftRight_eq_div_pow, packedWord_toNat region seq h]
  simp
  omega

theorem reservedOf_packedWord : reservedOf (packedWord region off seq) = 0 := by
  apply BitVec.eq_of_toNat_eq
  have hr := region.isLt
  have hq := seq.isLt
  rw [reservedOf, BitVec.extractLsb'_toNat, Nat.shiftRight_eq_div_pow, packedWord_toNat region seq h]
  simp
  omega

end

/-- The fields a legal word holds, put together again, are the word. -/
theorem packedWord_of_fields {v : Block} (h0 : reservedOf v = 0) (h1 : versionOf v = 1) :
    packedWord (regionOf v) (offsetOf v).toNat (seqOf v) = v := by
  have h := (offsetOf v).isLt
  refine block_ext ?_ (regionOf_packedWord _ _ h) ?_ (seqOf_packedWord _ _ h) ?_
  · rw [reservedOf_packedWord _ _ h, h0]
  · exact BitVec.eq_of_toNat_eq (offsetOf_packedWord _ _ h)
  · rw [versionOf_packedWord _ _ h, h1]

/-- The day offset of a valid date fits its field (R133, spec/93 U5). -/
theorem daysFromEpoch_lt {y m d : Nat} (h : validDate y m d = true) : daysFromEpoch y m d < 3652425 := by
  obtain ⟨hy, h1, h2, h3, h4⟩ := (validDate_iff y m d).mp h
  have hin := daysFromEpoch_in_year h1 h2 h3 h4
  have := yearStart_mono (by omega : y < 10000)
  rw [yearStart_tenThousand] at this
  omega

/-- `date_from_days` undoes `days_from_epoch` on the dates of the calendar (R134). -/
theorem dateFromDays_daysFromEpoch {y m d : Nat} (h1 : 1 ≤ m) (h2 : m ≤ 12) (h3 : 1 ≤ d) (h4 : d ≤ monthLen y m) :
    dateFromDays (daysFromEpoch y m d) = ⟨y, m, d⟩ := by
  obtain ⟨a, b, c, e, f⟩ := dateFromDays_spec (daysFromEpoch y m d)
  obtain ⟨g1, g2, g3⟩ := daysFromEpoch_injective ⟨a, b⟩ ⟨c, e⟩ ⟨h1, h2⟩ ⟨h3, h4⟩ f
  generalize dateFromDays (daysFromEpoch y m d) = x at *
  cases x
  simp_all

/-- The year passes 9999 exactly from day offset 3652425 on (R134, R145). -/
theorem year_gt_iff (off : Nat) : 9999 < (dateFromDays off).year ↔ 3652425 ≤ off := by
  obtain ⟨a, b, c, e, f⟩ := dateFromDays_spec off
  have hin := daysFromEpoch_in_year a b c e
  rw [f] at hin
  constructor
  · intro h
    obtain h | h := Nat.lt_or_ge 10000 (dateFromDays off).year
    · have := yearStart_mono h; rw [yearStart_tenThousand] at this; omega
    · have : (dateFromDays off).year = 10000 := by omega
      rw [this, yearStart_tenThousand] at hin; omega
  · intro h
    by_contra hlt
    have := yearStart_mono (by omega : (dateFromDays off).year < 10000)
    rw [yearStart_tenThousand] at this
    omega

theorem legalFields_iff (f : Fields) : legalFields f = true ↔
    f.region.toNat ≤ 999999 ∧ f.seq.toNat ≤ 999 ∧ validDate f.year.toNat f.month.toNat f.day.toNat = true := by
  simp [legalFields, and_assoc]

/-- PACK's checks pass exactly on legal fields, and then give the packed word (R140). -/
theorem packChecked_legal {f : Fields} (h : legalFields f = true) :
    packChecked f =
      .ok (packedWord f.region (daysFromEpoch f.year.toNat f.month.toNat f.day.toNat) f.seq) := by
  obtain ⟨h1, h2, h3⟩ := (legalFields_iff f).mp h
  obtain ⟨hy, a, b, c, d⟩ := (validDate_iff _ _ _).mp h3
  unfold packChecked
  rw [if_neg (by omega), if_neg (by omega), if_neg (by omega), if_neg (by omega), if_neg (by omega),
    if_neg (by omega)]

theorem packChecked_illegal {f : Fields} (h : legalFields f = false) : ∃ e, packChecked f = .error e := by
  unfold packChecked
  split; · exact ⟨_, rfl⟩
  split; · exact ⟨_, rfl⟩
  split; · exact ⟨_, rfl⟩
  split; · exact ⟨_, rfl⟩
  split; · exact ⟨_, rfl⟩
  split; · exact ⟨_, rfl⟩
  exfalso
  have : legalFields f = true := by
    rw [legalFields_iff, validDate_iff]; omega
  simp [this] at h

theorem packChecked_eq_ok {f : Fields} {v : Block} : packChecked f = .ok v ↔ legalFields f = true ∧
    v = packedWord f.region (daysFromEpoch f.year.toNat f.month.toNat f.day.toNat) f.seq := by
  cases h : legalFields f with
  | false => obtain ⟨e, he⟩ := packChecked_illegal h; simp [he]
  | true => rw [packChecked_legal h]; simp [eq_comm]

theorem legalWord_iff (v : Block) : legalWord v = true ↔ versionOf v = 1 ∧ reservedOf v = 0 ∧
    (offsetOf v).toNat ≤ 3652424 ∧ (regionOf v).toNat ≤ 999999 ∧ (seqOf v).toNat ≤ 999 := by
  simp [legalWord]

/-- UNPACK's checks pass exactly on legal words (R145, R147), and then give the fields. -/
theorem unpackChecked_legal {v : Block} (h : legalWord v = true) :
    unpackChecked v = .ok (unpackedResult v (dateFromDays (offsetOf v).toNat)) := by
  obtain ⟨h1, h2, h3, h4, h5⟩ := (legalWord_iff v).mp h
  have hy := year_gt_iff (offsetOf v).toNat
  simp only [unpackChecked]
  rw [if_neg (by simp [h1, formatVersion]), if_neg (by simp [h2]), if_neg (by omega), if_neg (by omega),
    if_neg (by omega)]

theorem unpackChecked_illegal {v : Block} (h : legalWord v = false) : ∃ e, unpackChecked v = .error e := by
  have hy := year_gt_iff (offsetOf v).toNat
  simp only [unpackChecked]
  split; · exact ⟨_, rfl⟩
  split; · exact ⟨_, rfl⟩
  split; · exact ⟨_, rfl⟩
  split; · exact ⟨_, rfl⟩
  split; · exact ⟨_, rfl⟩
  next g1 g2 g3 g4 g5 =>
  exfalso
  have : legalWord v = true := by
    rw [legalWord_iff]
    exact ⟨not_not.mp g1, not_not.mp g2, by omega, by omega, by omega⟩
  simp [this] at h

end Sys2Proof.Machine
end

