-- ==== Sys2Proof/Laws/PerInstr.lean ====
section
/-! SUPPORT. A statement made once for each command: the length of its canonical word (spec/30_encoding.md R63 to
R67). -/

namespace Sys2Proof.Laws

-- one lemma after another: side by side, the kernel's checks ask for too many threads
set_option Elab.async false

/-- The canonical word of a command has the length its format gives it (R63 to R67). -/
def WordLength.Statement (i : Instr) : Prop := (encode i).length = commandBits i

theorem WordLength.stat : WordLength.Statement .stat := rfl

theorem WordLength.keyw (key : List Word) : WordLength.Statement (.keyw key) := by
  simp [WordLength.Statement, encode, commandBits]; omega

theorem WordLength.keyb (kb : List Byte) : WordLength.Statement (.keyb kb) := by
  simp [WordLength.Statement, encode, commandBits]; omega

theorem WordLength.keyclr : WordLength.Statement .keyclr := rfl

theorem WordLength.enc (data : Block) : WordLength.Statement (.enc data) := by
  simp [WordLength.Statement, encode, commandBits]

theorem WordLength.dec (data : Block) : WordLength.Statement (.dec data) := by
  simp [WordLength.Statement, encode, commandBits]

theorem WordLength.pack (region : BitVec 20) (year : BitVec 14) (month : BitVec 4) (day : BitVec 5)
    (seq : BitVec 10) : WordLength.Statement (.pack region year month day seq) := by
  simp [WordLength.Statement, encode, commandBits]

theorem WordLength.unpack (data : Block) : WordLength.Statement (.unpack data) := by
  simp [WordLength.Statement, encode, commandBits]

theorem WordLength.encode (region : BitVec 20) (year : BitVec 14) (month : BitVec 4) (day : BitVec 5)
    (seq : BitVec 10) : WordLength.Statement (.encode region year month day seq) := by
  simp [WordLength.Statement, Sys2Proof.encode, commandBits]

theorem WordLength.decode (data : Block) : WordLength.Statement (.decode data) := by
  simp [WordLength.Statement, Sys2Proof.encode, commandBits]

end Sys2Proof.Laws
end

