-- ==== Sys2Proof/Laws/Words.lean ====
section
/-! SUPPORT. The operators of the cipher: rotations, halves, rounds (spec/00_scope.md R11, spec/40_cipher.md). -/

namespace Sys2Proof.Machine

/-- The spec's rotations (R11) are the library's. -/
theorem rol32_eq_rotateLeft (x : Word) {r : Nat} (h : r ≤ 31) : rol32 x r = x.rotateLeft r := by
  unfold rol32
  split
  · next h0 => subst h0; apply BitVec.eq_of_getLsbD_eq; intro i hi; simp [hi]
  · rw [BitVec.rotateLeft_def, Nat.mod_eq_of_lt (by omega)]

theorem ror32_eq_rotateRight (x : Word) {r : Nat} (h : r ≤ 31) : ror32 x r = x.rotateRight r := by
  unfold ror32
  split
  · next h0 => subst h0; apply BitVec.eq_of_getLsbD_eq; intro i hi; simp [hi]
  · rw [BitVec.rotateRight_def, Nat.mod_eq_of_lt (by omega)]

theorem ror32_rol32 (x : Word) {r : Nat} (h : r ≤ 31) : ror32 (rol32 x r) r = x := by
  rw [ror32_eq_rotateRight _ h, rol32_eq_rotateLeft _ h]
  apply BitVec.eq_of_getLsbD_eq
  intro i hi
  simp only [BitVec.getLsbD_rotateRight, BitVec.getLsbD_rotateLeft, Nat.mod_eq_of_lt (show r < 32 by omega)]
  by_cases h1 : i < 32 - r
  · have : ¬ (r + i < r) := by omega
    simp [h1, this, show r + i < 32 by omega]
  · have : i - (32 - r) < r := by omega
    simp [h1, this, hi, show 32 - r + (i - (32 - r)) = i by omega]

theorem rol32_ror32 (x : Word) {r : Nat} (h : r ≤ 31) : rol32 (ror32 x r) r = x := by
  rw [ror32_eq_rotateRight _ h, rol32_eq_rotateLeft _ h]
  apply BitVec.eq_of_getLsbD_eq
  intro i hi
  simp only [BitVec.getLsbD_rotateRight, BitVec.getLsbD_rotateLeft, Nat.mod_eq_of_lt (show r < 32 by omega)]
  by_cases h1 : i < r
  · have : ¬ (32 - r + i < 32 - r) := by omega
    simp [h1, this, show 32 - r + i < 32 by omega]
  · have : i - r < 32 - r := by omega
    simp [h1, this, hi, show r + (i - r) = i by omega]

theorem splitBlock_joinHalves (h : Halves) : splitBlock (joinHalves h) = h := by
  obtain ⟨a, b⟩ := h
  simp only [splitBlock, joinHalves, Halves.mk.injEq]
  constructor <;> (apply BitVec.eq_of_getLsbD_eq; intro i hi)
  · simp [hi, show 32 + i < 64 by omega]
  · simp [hi, show i < 64 by omega]

theorem joinHalves_splitBlock (v : Block) : joinHalves (splitBlock v) = v := by
  apply BitVec.eq_of_getLsbD_eq
  intro i hi
  by_cases h : i < 32
  · simp [splitBlock, joinHalves, h, hi]
  · simp [splitBlock, joinHalves, h, hi, show i - 32 < 32 by omega, show 32 + (i - 32) = i by omega]

/-- R110, one round: a decryption round undoes the encryption round with the same key. -/
theorem decryptRound_encryptRound (c : Config) (h : Halves) (k : Word) :
    decryptRound c (encryptRound c h k) k = h := by
  obtain ⟨a, b⟩ := h
  simp only [decryptRound, encryptRound, Halves.mk.injEq]
  have e : rol32 b c.beta ^^^ ((ror32 a c.alpha + b) ^^^ k) ^^^ ((ror32 a c.alpha + b) ^^^ k) = rol32 b c.beta := by
    rw [BitVec.xor_assoc, BitVec.xor_self, BitVec.xor_zero]
  rw [e, ror32_rol32 _ c.beta_legal, BitVec.xor_assoc, BitVec.xor_self, BitVec.xor_zero, BitVec.add_sub_cancel,
    rol32_ror32 _ c.alpha_legal]
  exact ⟨rfl, rfl⟩

theorem encryptRound_decryptRound (c : Config) (h : Halves) (k : Word) :
    encryptRound c (decryptRound c h k) k = h := by
  obtain ⟨a, b⟩ := h
  simp only [decryptRound, encryptRound, Halves.mk.injEq]
  rw [ror32_rol32 _ c.alpha_legal, rol32_ror32 _ c.beta_legal, BitVec.sub_add_cancel, BitVec.xor_assoc,
    BitVec.xor_self, BitVec.xor_zero, BitVec.xor_assoc, BitVec.xor_self, BitVec.xor_zero]
  exact ⟨rfl, rfl⟩

/-- The four bytes of a key word do not overlap (R42). -/
theorem wordOfBytes_toNat (b0 b1 b2 b3 : Byte) : (wordOfBytes b0 b1 b2 b3).toNat =
    b0.toNat + b1.toNat * 2 ^ 8 + b2.toNat * 2 ^ 16 + b3.toNat * 2 ^ 24 := by
  have h0 := b0.isLt
  have h1 := b1.isLt
  have h2 := b2.isLt
  have h3 := b3.isLt
  have e1 : b1.toNat <<< 8 ||| b0.toNat = b1.toNat * 2 ^ 8 + b0.toNat := by
    rw [← Nat.shiftLeft_add_eq_or_of_lt (by omega), Nat.shiftLeft_eq]
  have e2 : b2.toNat <<< 16 ||| (b1.toNat * 2 ^ 8 + b0.toNat) = b2.toNat * 2 ^ 16 + (b1.toNat * 2 ^ 8 + b0.toNat) := by
    rw [← Nat.shiftLeft_add_eq_or_of_lt (by omega), Nat.shiftLeft_eq]
  have e3 : b3.toNat <<< 24 ||| (b2.toNat * 2 ^ 16 + (b1.toNat * 2 ^ 8 + b0.toNat)) =
      b3.toNat * 2 ^ 24 + (b2.toNat * 2 ^ 16 + (b1.toNat * 2 ^ 8 + b0.toNat)) := by
    rw [← Nat.shiftLeft_add_eq_or_of_lt (by omega), Nat.shiftLeft_eq]
  have k0 : (b0.setWidth 32).toNat = b0.toNat := by simp; omega
  have k1 : (b1.setWidth 32 <<< 8).toNat = b1.toNat <<< 8 := by
    simp [BitVec.toNat_shiftLeft, Nat.shiftLeft_eq]; omega
  have k2 : (b2.setWidth 32 <<< 16).toNat = b2.toNat <<< 16 := by
    simp [BitVec.toNat_shiftLeft, Nat.shiftLeft_eq]; omega
  have k3 : (b3.setWidth 32 <<< 24).toNat = b3.toNat <<< 24 := by
    simp [BitVec.toNat_shiftLeft, Nat.shiftLeft_eq]; omega
  simp only [wordOfBytes, BitVec.toNat_or, k0, k1, k2, k3]
  rw [Nat.or_comm b0.toNat, e1, Nat.or_comm _ (b2.toNat <<< 16), e2, Nat.or_comm _ (b3.toNat <<< 24), e3]
  omega

theorem length_scheduleFrom (c : Config) (n i : Nat) (buf : List Word) (k : Word) :
    (scheduleFrom c n i buf k).length = n := by
  induction n generalizing i buf k with
  | zero => rfl
  | succ n ih => simp [scheduleFrom, ih]

/-- `expand` gives `T` round keys (R102), whatever the key. -/
theorem length_expand (c : Config) (key : List Word) : (expand c key).length = c.rounds := by
  have := c.rounds_legal
  simp [expand, length_scheduleFrom]
  omega

end Sys2Proof.Machine
end

