-- ==== Sys2Proof/Tests/Slice0.lean ====
section
/-! SUPPORT. The model's own tests. Expected values are those of spec/95_test_vectors.md (the section is named at each
group) or are worked from the rule named; then, for each statement of Certificates/Slice0/Obligations.lean that has
hypotheses, a witness that meets them. -/

namespace Sys2Proof.Tests

open Sys2Proof Sys2Proof.Machine

-- one theorem after another: side by side, the evaluations below ask for too many threads
set_option Elab.async false

/-! ### Helpers -/

/-- The response that a step delivered. -/
def answerOf (o : StepOutcome) : Option Response :=
  match o with
  | .next t => t.response
  | .fault _ => none
  | .refused _ => none

/-- The state that a step left. -/
def stateAfter (o : StepOutcome) (s : State) : State :=
  match o with
  | .next t => t
  | .fault _ => s
  | .refused _ => s

/-- The key words of 95_test_vectors.md, "Std key". -/
def stdKey : List Word := [0x0b0a0908, 0x13121110, 0x1b1a1918, 0x03020100]

/-- The standard instance with the Std key loaded: `RK` written out from 95_test_vectors.md section 2.2. -/
def keyed : State :=
  { State.reset with
    keyValid := true
    rk := [0x03020100, 0x131d0309, 0xbbd80d53, 0x0d334df3, 0x7fa43565, 0x67e6ce55, 0xe98cb3d2, 0xaac76cbd, 0x7f5951c8,
      0x03fa82c2, 0x313533ad, 0xdff70882, 0x9e487c93, 0xa934b928, 0xdd2edef5, 0x8be6388d, 0x1f706b89, 0x2b87aaf8,
      0x12d76c17, 0x6eaccd6c, 0x6a1ab912, 0x10bc6bca, 0x6057dd32, 0xd3c9b381, 0xb347813d, 0x8c113c35, 0xfe6b523a] }

/-- An instance of one round, with a key of two words loaded. -/
def oneRound : State :=
  { State.resetOf { rounds := 1, alpha := 8, beta := 3, nMax := 4 } with keyValid := true, rk := [0] }

/-- The standard instance after reset, with these inputs to come. -/
def withInputs (inputs : List HostInput) : State := { State.reset with stream := inputs }

/-! ### WellFormed: an ill-formed command for each check -/

theorem test_wellFormed_refuses_256_key_words : Instr.wellFormed (.keyw (List.replicate 256 0)) = false := by
  decide +kernel

theorem test_wellFormed_refuses_65536_key_bytes : Instr.wellFormed (.keyb (List.replicate 65536 0)) = false := by
  rw [Instr.wellFormed, List.length_replicate]
  decide

theorem test_wellFormed_accepts_255_key_words : Instr.wellFormed (.keyw (List.replicate 255 0)) = true := by
  decide +kernel

/-! ### Decoding: words written out from 30_encoding.md R63 to R67 and 95_test_vectors.md section 6 -/

theorem test_decode_stat : decode [false, false, false, false] = .ok .stat := by decide

theorem test_decode_keyclr : decode [false, false, true, true] = .ok .keyclr := by decide

theorem test_decode_keyw :
    decode (bitsOf 140 0x1040b0a0908131211101b1a191803020100) = .ok (.keyw stdKey) := by decide +kernel

theorem test_decode_keyb : decode (bitsOf 44 0x20003aabbcc) = .ok (.keyb [0xaa, 0xbb, 0xcc]) := by decide +kernel

theorem test_decode_enc : decode (bitsOf 68 0x43b7265747475432d) = .ok (.enc 0x3b7265747475432d) := by decide +kernel

theorem test_decode_dec : decode (bitsOf 68 0x58c6fa548454e028b) = .ok (.dec 0x8c6fa548454e028b) := by decide +kernel

theorem test_decode_pack : decode (bitsOf 57 0x0C35C323B617402) = .ok (.pack 110105 1900 2 29 2) := by decide +kernel

theorem test_decode_unpack : decode (bitsOf 68 0x7001ae150000007b1) = .ok (.unpack 0x001ae150000007b1) := by
  decide +kernel

theorem test_decode_encode : decode (bitsOf 57 0x1035C323CEE7C02) = .ok (.encode 110105 1949 12 31 2) := by
  decide +kernel

theorem test_decode_decode : decode (bitsOf 68 0x97838f640af72f366) = .ok (.decode 0x7838f640af72f366) := by
  decide +kernel

theorem test_decode_refuses_reserved : decode [true, false, true, false, true] = .error (.reserved 0xA) := by decide

theorem test_decode_refuses_trailing_bit : decode [false, false, false, false, false] = .error .trailingBits := by
  decide

theorem test_decode_refuses_truncated_key : decode (bitsOf 12 0x101) = .error .truncated := by decide +kernel

theorem test_decode_refuses_no_opcode : decode [false, false, false] = .error .noOpcode := by decide

/-- The ten rows of spec/opcode_table.json, operand bits zero. -/
theorem test_table_rows : [decodeTableWord 8 0x0, decodeTableWord 8 0x1, decodeTableWord 8 0x2, decodeTableWord 8 0x3,
    decodeTableWord 72 0x40000000000000000, decodeTableWord 72 0x50000000000000000,
    decodeTableWord 64 0x0C0000000000000, decodeTableWord 72 0x70000000000000000,
    decodeTableWord 64 0x100000000000000, decodeTableWord 72 0x90000000000000000] =
    [some .stat, some (.keyw []), some (.keyb []), some .keyclr, some (.enc 0), some (.dec 0),
      some (.pack 0 0 0 0 0), some (.unpack 0), some (.encode 0 0 0 0 0), some (.decode 0)] := by decide +kernel

theorem test_table_keyw_with_count_bits : decodeTableWord 16 0x100 = some (.keyw []) ∧
    decodeTableWord 24 0x20000 = some (.keyb []) := by decide +kernel

/-- The next step of a block with a row's word at its port runs that row's command. -/
theorem test_withFetchWord_runs : answerOf (step (State.reset.withFetchWord 8 0x0)) =
    some (.ok (.data 0x0000000403081B10)) := by decide +kernel

/-! ### The commands: 95_test_vectors.md sections 2 to 5 -/

theorem test_stat_with_key : answerOf (exec .stat keyed) = some (.ok (.data 0x0000000403081B11)) := by decide +kernel

theorem test_keyw_loads_std_key : (stateAfter (exec (.keyw stdKey) State.reset) State.reset).rk = keyed.rk := by
  decide +kernel

theorem test_keyw_of_one_word : answerOf (exec (.keyw [7]) State.reset) = some (.err (.invalidKey 1)) := by
  decide +kernel

theorem test_keyb_loads_std_key :
    (stateAfter (exec (.keyb [0x08, 0x09, 0x0a, 0x0b, 0x10, 0x11, 0x12, 0x13, 0x18, 0x19, 0x1a, 0x1b, 0x00, 0x01, 0x02,
      0x03]) State.reset) State.reset).rk = keyed.rk := by decide +kernel

theorem test_keyb_of_15_bytes : answerOf (exec (.keyb (List.replicate 15 0)) State.reset) =
    some (.err (.invalidKey 15)) := by decide +kernel

theorem test_keyclr_zeroes : stateAfter (exec .keyclr keyed) keyed =
    { State.reset with response := some (.ok .nothing) } := by decide +kernel

theorem test_enc_published_vector : answerOf (exec (.enc 0x3b7265747475432d) keyed) =
    some (.ok (.data 0x8c6fa548454e028b)) := by decide +kernel

theorem test_enc_without_key : answerOf (exec (.enc 0) State.reset) = some (.err .keyNotLoaded) := by decide +kernel

theorem test_dec_of_zero : answerOf (exec (.dec 0) keyed) = some (.ok (.data 0x64285930e09c8ffd)) := by decide +kernel

theorem test_dec_wraps : answerOf (exec (.dec 8) oneRound) = some (.ok (.data 0xffffffff00000001)) := by
  decide +kernel

theorem test_pack_leap_day : answerOf (exec (.pack 440300 2000 2 29 1) State.reset) =
    some (.ok (.data 0x006B7EC2C96C0011)) := by decide +kernel

theorem test_pack_feb_29_of_1900 : answerOf (exec (.pack 110105 1900 2 29 2) State.reset) =
    some (.err (.invalidDate true 29)) := by decide +kernel

theorem test_unpack_largest_word : answerOf (exec (.unpack 0x00F423FDEED23E71) State.reset) =
    some (.ok (.fields ⟨999999, 9999, 12, 31, 999⟩ 2)) := by decide +kernel

theorem test_unpack_year_before_region_and_sequence : answerOf (exec (.unpack 0x00FFFFFFFFFFFFF1) State.reset) =
    some (.err (.outOfRange .year 11483)) := by decide +kernel

theorem test_encode_with_key : answerOf (exec (.encode 110105 1949 12 31 2) keyed) =
    some (.ok (.data 0x7838F640AF72F366)) := by decide +kernel

theorem test_encode_without_key : answerOf (exec (.encode 110105 1949 12 31 2) State.reset) =
    some (.ok (.data 0x001AE192B7878021)) := by decide +kernel

theorem test_decode_tampered_word : answerOf (exec (.decode 0x7838F640AF72E45F) keyed) =
    some (.ok (.fields ⟨794964, 6404, 9, 11, 219⟩ 0)) := by decide +kernel

theorem test_decode_of_plain_word : answerOf (exec (.decode 0x001AE192B7878021) keyed) =
    some (.err (.unsupportedVersion 15)) := by decide +kernel

/-! ### The port -/

theorem test_reserved_opcode : answerOf (step (withInputs [.command [true, true, true, true, false]])) =
    some (.err (.illegalCommand 0xF)) := by decide +kernel

theorem test_reset_zeroes : stateAfter (step { keyed with stream := [.reset] }) keyed = State.reset := by
  decide +kernel

/-! ### The host-side functions: 95_test_vectors.md section 4 -/

theorem test_parse_lower_case_x : parse ['1', '1', '0', '1', '0', '5', '1', '9', '4', '9', '1', '2', '3', '1', '0', '0',
    '2', 'x'] = .ok ⟨110105, 1949, 12, 31, 2, 10⟩ := by decide +kernel

theorem test_parse_impossible_date : parse ['1', '1', '0', '1', '0', '1', '1', '9', '0', '0', '0', '2', '2', '9', '1',
    '2', '3', '3'] = .error (.invalidDate true 29) := by decide +kernel

theorem test_parse_letter_last : parse ['1', '1', '0', '1', '0', '5', '1', '9', '4', '9', '1', '2', '3', '1', '0', '0',
    '2', 'A'] = .error .invalidCharacter := by decide +kernel

theorem test_validate_wrong_check : validate ['1', '1', '0', '1', '0', '5', '1', '9', '4', '9', '1', '2', '3', '1', '0',
    '0', '2', '1'] = .error .invalidCheckCode := by decide +kernel

theorem test_checksum_length_first : checksum ['a'] = .error .invalidLength := by decide +kernel

theorem test_format_month_below_range : formatFields 110105 1949 (-1) 31 2 = .error (.outOfRange .month (-1)) := by
  decide +kernel

theorem test_canonical_string : canonicalString ⟨0, 0, 1, 1, 0, 9⟩ = ['0', '0', '0', '0', '0', '0', '0', '0', '0', '0',
    '0', '1', '0', '1', '0', '0', '0', '9'] := by decide +kernel

/-! ### Witnesses: for each statement with hypotheses, a state and operands that meet them; where a statement has
several clauses, one at a boundary of each -/

theorem witness_DecodeOfEncodeIsTheCommand : Instr.wellFormed (.keyw stdKey) = true := by decide

theorem witness_EncodeOfDecodeIsTheWord : decode [false, false, true, true] = .ok .keyclr := by decide

theorem witness_WordsOfFormatsWAndB : ((List.replicate 255 (0 : Word)).length ≤ 255 ∧
    0 < (List.replicate 255 (0 : Word)).length) ∧ (List.replicate 65535 (0 : Byte)).length ≤ 65535 := by
  rw [List.length_replicate, List.length_replicate]
  decide

theorem witness_StepRunsTheDecodedCommand : (withInputs [.command [false, false, true, true]]).wasReset = true ∧
    (withInputs [.command [false, false, true, true]]).stream = .command [false, false, true, true] :: [] ∧
    decode [false, false, true, true] = .ok .keyclr := by decide

theorem witness_ReservedOpcodeRaisesIllegalCommand_least : 10 ≤ (0xA : BitVec 4).toNat ∧
    (withInputs [.command (bitsOf 4 (0xA : BitVec 4).toNat ++ [])]).wasReset = true ∧
    (withInputs [.command (bitsOf 4 (0xA : BitVec 4).toNat ++ [])]).stream =
      .command (bitsOf 4 (0xA : BitVec 4).toNat ++ []) :: [] := ⟨by decide, rfl, rfl⟩

theorem witness_ReservedOpcodeRaisesIllegalCommand_greatest : 10 ≤ (0xF : BitVec 4).toNat ∧
    (withInputs [.command (bitsOf 4 (0xF : BitVec 4).toNat ++ [true])]).wasReset = true ∧
    (withInputs [.command (bitsOf 4 (0xF : BitVec 4).toNat ++ [true])]).stream =
      .command (bitsOf 4 (0xF : BitVec 4).toNat ++ [true]) :: [] := ⟨by decide, rfl, rfl⟩

theorem witness_MalformedCommandWordStops : (withInputs [.command [false]]).wasReset = true ∧
    (withInputs [.command [false]]).stream = .command [false] :: [] ∧ decode [false] = .error .noOpcode ∧
    ∀ op, DecodeError.noOpcode ≠ .reserved op := ⟨rfl, rfl, by decide, by simp⟩

theorem witness_ResetGivesTheResetState : (withInputs [.reset]).stream = .reset :: [] ∧
    (withInputs [.commandCutByReset [true]]).stream = .commandCutByReset [true] :: [] := ⟨rfl, rfl⟩

theorem witness_PowerLossRetainsOrResets : (withInputs [.powerLoss true]).stream = .powerLoss true :: [] ∧
    (withInputs [.powerLoss false]).stream = .powerLoss false :: [] := ⟨rfl, rfl⟩

theorem witness_CommandBeforeFirstResetHasNoMeaning :
    ({ keyed with wasReset := false, stream := [.command [true]] } : State).wasReset = false ∧
    ({ keyed with wasReset := false, stream := [.command [true]] } : State).stream = .command [true] :: [] := ⟨rfl, rfl⟩

theorem witness_CommandPresentedEarlyHasNoMeaning :
    (withInputs [.earlyCommand [true]]).stream = .earlyCommand [true] :: [] := rfl

/-- Both bounds of the accepted length, and the two lengths just outside them. -/
theorem witness_KeywLoadsTheExpandedKeyOrRejects :
    (2 ≤ [(0 : Word), 0].length ∧ [(0 : Word), 0].length ≤ State.reset.inst.nMax) ∧
    (2 ≤ stdKey.length ∧ stdKey.length ≤ State.reset.inst.nMax) ∧ [(0 : Word)].length < 2 ∧
    State.reset.inst.nMax < (0 :: stdKey).length := by decide

/-- 8 and 16 bytes are accepted; 9, 4 and 20 bytes are each outside one bound. -/
theorem witness_KeybLoadsTheLittleEndianKeyOrRejects :
    ((List.replicate 8 (0 : Byte)).length % 4 = 0 ∧ 2 ≤ (List.replicate 8 (0 : Byte)).length / 4 ∧
      (List.replicate 8 (0 : Byte)).length / 4 ≤ State.reset.inst.nMax) ∧
    ((List.replicate 16 (0 : Byte)).length % 4 = 0 ∧ 2 ≤ (List.replicate 16 (0 : Byte)).length / 4 ∧
      (List.replicate 16 (0 : Byte)).length / 4 ≤ State.reset.inst.nMax) ∧
    (List.replicate 9 (0 : Byte)).length % 4 ≠ 0 ∧ (List.replicate 4 (0 : Byte)).length / 4 < 2 ∧
    State.reset.inst.nMax < (List.replicate 20 (0 : Byte)).length / 4 := by decide

theorem witness_KeybOnTheBytesOfAKeyEqualsKeyw : 2 ≤ stdKey.length ∧ stdKey.length ≤ State.reset.inst.nMax := by
  decide

theorem witness_KeyCommandsAreIdempotent : isKeyCommand .keyclr = true ∧
    exec .keyclr keyed = .next { State.reset with response := some (.ok .nothing) } := ⟨rfl, rfl⟩

theorem witness_ExpandFollowsTheSchedule : 2 ≤ [(0 : Word), 0].length ∧ 25 + 1 < Config.standard.rounds := by decide

theorem witness_RotationsUndoEachOther : (0 ≤ 31 ∧ 31 ≤ 31) ∧ 0 < 32 ∧ 31 < 32 := by decide

theorem witness_EncryptFollowsTheRounds : 26 < keyed.rk.length := by decide

theorem witness_DecryptFollowsTheRounds : 26 < keyed.rk.length := by decide

theorem witness_EncAndDecAnswer : keyed.keyValid = true ∧ State.reset.keyValid = false := by decide

theorem witness_EncAndDecRoundTrip : keyed.keyValid = true ∧
    ({ keyed with response := some (.ok .nothing) } : State).inst = keyed.inst ∧
    ({ keyed with response := some (.ok .nothing) } : State).rk = keyed.rk ∧
    ({ keyed with response := some (.ok .nothing) } : State).keyValid = keyed.keyValid := ⟨rfl, rfl, rfl, rfl⟩

theorem witness_DayOffsetCountsTheDays : (1 ≤ 1 ∧ 1 ≤ 12) ∧ (1 ≤ 12 ∧ 12 ≤ 12) := by decide

/-- One pair of dates for each of the three ways one date can come before another, and the last offset. -/
theorem witness_DayOffsetOrdersTheValidDates :
    (validDate 0 12 31 = true ∧ validDate 1 1 1 = true ∧ 0 < 1) ∧
    (validDate 1900 2 28 = true ∧ validDate 1900 3 1 = true ∧ 2 < 3) ∧
    (validDate 9999 12 30 = true ∧ validDate 9999 12 31 = true ∧ 30 < 31) ∧ 3652424 ≤ 3652424 := by decide +kernel

theorem witness_DateFromDaysIsTheOneDate : 0 < 2 ^ 22 ∧ 4194303 < 2 ^ 22 ∧ 11483 > 9999 ∧ 8 ≤ 12 ∧
    12 ≤ monthLen 11483 8 ∧ daysFromEpoch 11483 8 12 = 4194303 := by decide +kernel

theorem witness_CheckCodeIsTheTableOfTheWeightedSum : (List.replicate 17 9).length = 17 ∧ 16 < 17 ∧ 10 < 11 := by
  decide

theorem witness_OneWrongDigitChangesTheCheckCode : (List.replicate 17 0).length = 17 ∧
    (∀ x ∈ List.replicate 17 0, x ≤ 9) ∧ 16 < 17 ∧ 9 ≤ 9 ∧ 9 ≠ (List.replicate 17 0).getD 16 0 := by decide

theorem witness_DigitsSpellTheFields : 999999 ≤ 999999 ∧ 9999 ≤ 9999 ∧ 99 ≤ 99 ∧ 999 ≤ 999 := by decide

theorem witness_PackedWordHoldsItsFields : exec (.pack 999999 9999 12 31 999) State.reset =
    .next { State.reset with response := some (.ok (.data 0x00F423FDEED23E71)) } := rfl

theorem witness_PackIsInjective : exec (.pack 0 0 1 1 0) State.reset =
    .next { State.reset with response := some (.ok (.data 1)) } ∧
    exec (.pack 0 0 1 1 0) keyed = .next { keyed with response := some (.ok (.data 1)) } := ⟨rfl, rfl⟩

theorem witness_PackAndUnpackRoundTrip : exec (.pack 110101 0 1 1 123) State.reset =
    .next { State.reset with response := some (.ok (.data 0x001AE150000007B1)) } ∧
    exec (.unpack 0x001AE150000007B1) State.reset =
      .next { State.reset with response := some (.ok (.fields ⟨110101, 0, 1, 1, 123⟩ 6)) } := ⟨rfl, rfl⟩

/-- Legal operands at the upper ends of all their ranges, and operands that are not legal; with and without a key. -/
theorem witness_EncodePacksThenEncrypts : legalFields ⟨999999, 9999, 12, 31, 999⟩ = true ∧
    legalFields ⟨999999, 9999, 2, 29, 999⟩ = false ∧ keyed.keyValid = true ∧ State.reset.keyValid = false := by
  decide +kernel

theorem witness_DecodeAnswersWhatUnpackAnswers : keyed.keyValid = true ∧ State.reset.keyValid = false := by decide

/-- The largest legal word with no key, and the decryption of 0x7838F640AF72F366 with one. -/
theorem witness_DecodeAnswersTheFields :
    (State.reset.keyValid = false ∧ legalWord 0x00F423FDEED23E71 = true) ∧
    keyed.keyValid = true ∧ decrypt keyed.inst keyed.rk 0x7838F640AF72F366 = 0x001AE192B7878021 ∧
    legalWord 0x001AE192B7878021 = true := by decide +kernel

theorem witness_ComposedCommandsEqualTheirTwoCommands : (keyed.keyValid = true ∧
    exec (.pack 0 0 1 1 0) keyed = .next { keyed with response := some (.ok (.data 1)) } ∧
    exec (.pack 0 0 1 0 0) keyed = .next { keyed with response := some (.err (.outOfRange .day 0)) }) ∧
    State.reset.keyValid = false := ⟨⟨rfl, rfl, rfl⟩, rfl⟩

theorem witness_EncodeThenDecodeReturnsTheNumber :
    ({ keyed with stream := [.reset] } : State).inst = keyed.inst ∧
    ({ keyed with stream := [.reset] } : State).rk = keyed.rk ∧
    ({ keyed with stream := [.reset] } : State).keyValid = keyed.keyValid ∧
    exec (.encode 110105 1949 12 31 2) State.reset =
      .next { State.reset with response := some (.ok (.data 0x001AE192B7878021)) } := ⟨rfl, rfl, rfl, rfl⟩

theorem witness_ComposedCommandsReportCodecErrorsOnly : (∃ x, Instr.decode 0 = .decode x) ∧
    exec (.decode 0) State.reset = .next { State.reset with response := some (.err (.unsupportedVersion 0)) } ∧
    (∃ r y m d q, Instr.encode 0 0 0 0 0 = .encode r y m d q) ∧
    exec (.encode 0 0 0 0 0) State.reset =
      .next { State.reset with response := some (.err (.outOfRange .month 0)) } :=
  ⟨⟨0, rfl⟩, rfl, ⟨0, 0, 0, 0, 0, rfl⟩, rfl⟩

theorem witness_AnErrorChangesNothing : exec (.enc 0) State.reset =
    .next { State.reset with response := some (.err .keyNotLoaded) } := rfl

theorem witness_OnlyKeyCommandsWriteState : isKeyCommand .stat = false ∧
    exec .stat keyed = .next { keyed with response := some (.ok (.data 0x0000000403081B11)) } := ⟨rfl, rfl⟩

/-- A step that changes the key state by a command, and one that changes it by a reset. -/
theorem witness_KeyStateChangesOnlyByKeyCommandsAndReset :
    step { keyed with stream := [.command [false, false, true, true]] } =
      .next { State.reset with response := some (.ok .nothing) } ∧
    step { keyed with stream := [.reset] } = .next State.reset := ⟨rfl, rfl⟩

theorem witness_RoundKeysAreUnreadWithoutAKey : State.reset.keyValid = false := rfl

theorem witness_RoundKeysReachOnlyTheCipherCommands : mayReadRoundKeys (.unpack 1) = false := rfl

/-- A keyed state of the one-round instance, waiting for its host. -/
theorem witness_EveryStepKeepsTheInvariant : Inv oneRound ∧ step oneRound = .next oneRound :=
  ⟨⟨rfl, (fun _ h => nomatch h), (fun _ _ => ⟨[0, 0], by decide, by decide, rfl⟩)⟩, rfl⟩

theorem witness_AnObedientHostNeverStopsTheBlock : HostObeys oneRound ∧ Inv oneRound ∧
    HostObeys (withInputs [.reset, .command [true, false, true, false], .powerLoss true]) :=
  ⟨rfl, witness_EveryStepKeepsTheInvariant.1, rfl⟩

theorem witness_TheKeyLivesUntilTheNextKeyCommand :
    ({ keyed with stream := [.command (encode .stat)] } : State).wasReset = true ∧
    (∀ i ∈ [Instr.stat], i.wellFormed = true ∧ isKeyCommand i = false) ∧
    ({ keyed with stream := [.command (encode .stat)] } : State).stream =
      [Instr.stat].map (fun i => .command (encode i)) ++ [] := ⟨rfl, by decide, rfl⟩

/-- The zero record, and the first and last entry of each table. -/
theorem witness_ResponseRecordsSeparateOkFromError :
    ResponseRecord.zero = ⟨0, 0, 0, 0, 0, 0, 0, 0, 0, 0, 0⟩ ∧
    (∀ p ∈ [((1 : BitVec 3), FieldId.regionCode), (5, .sequence)], p ∈ [((1 : BitVec 3), FieldId.regionCode),
      (2, .year), (3, .month), (4, .day), (5, .sequence)]) ∧
    (∀ p ∈ [((1 : BitVec 4), ErrorKind.invalidLength), (3, .invalidCheckCode)],
      p ∈ [((1 : BitVec 4), ErrorKind.invalidLength), (2, .invalidCharacter), (3, .invalidCheckCode)]) := by
  decide

/-- The string of the epoch date (95_test_vectors.md S5). -/
def epochString : List Char :=
  ['1', '1', '0', '1', '0', '1', '0', '0', '0', '0', '0', '1', '0', '1', '1', '2', '3', '6']

theorem witness_ParsedNumberIsLegalAndCanonical : parse epochString = .ok ⟨110101, 0, 1, 1, 123, 6⟩ := by
  decide +kernel

theorem witness_StringRoundTripThroughTheBlock : parse epochString = .ok ⟨110101, 0, 1, 1, 123, 6⟩ ∧
    ({ keyed with stream := [.reset] } : State).inst = keyed.inst ∧
    ({ keyed with stream := [.reset] } : State).rk = keyed.rk ∧
    ({ keyed with stream := [.reset] } : State).keyValid = keyed.keyValid :=
  ⟨witness_ParsedNumberIsLegalAndCanonical, rfl, rfl, rfl⟩

/-- 17 characters; a letter in position 16; a letter last. -/
theorem witness_ParseFailsInStepOrder_characters :
    (epochString.take 17).length ≠ 18 ∧
    ((epochString.set 16 'A').length = 18 ∧
      ∃ c ∈ (upperString (epochString.set 16 'A')).take 17, isDigitChar c = false) ∧
    ((epochString.set 17 'a').length = 18 ∧ isDigitChar ((upperString (epochString.set 17 'a')).getD 17 '0') = false ∧
      (upperString (epochString.set 17 'a')).getD 17 '0' ≠ 'X') :=
  ⟨by decide +kernel, ⟨by decide +kernel, 'A', by decide +kernel, by decide +kernel⟩, by decide +kernel,
    by decide +kernel, by decide +kernel⟩

/-- A wrong check character; an impossible date with its right check character; and the epoch string, which fails
nowhere. -/
theorem witness_ParseFailsInStepOrder_check :
    ((∀ c ∈ (upperString (epochString.set 17 'x')).take 17, isDigitChar c = true) ∧
      (upperString (epochString.set 17 'x')).getD 17 '0' = 'X' ∧
      'X' ≠ checkChar (checkCode (((upperString (epochString.set 17 'x')).take 17).map digitValue))) ∧
    ('4' = checkChar (checkCode (((upperString ((epochString.set 11 '0').set 17 '4')).take 17).map digitValue)) ∧
      validDate 0 0 1 = false) ∧
    (epochString.length = 18 ∧ '6' = checkChar (checkCode (((upperString epochString).take 17).map digitValue)) ∧
      validDate 0 1 1 = true) :=
  ⟨⟨List.all_eq_true.mp (by decide +kernel), by decide +kernel, by decide +kernel⟩, by decide +kernel,
    by decide +kernel⟩

end Sys2Proof.Tests
end

section
/-! Noninterference of the previous response (spec/10_state.md R28): each shared operation a command ends in overwrites
the response and reads only the other fields. -/

namespace Sys2Proof.Machine

theorem respond_of_previous (r : Response) (s : State) (previous : Option Response) :
    respond r { s with response := previous } = respond r s := rfl

theorem raise_of_previous (e : BlockError) (s : State) (previous : Option Response) :
    raise e { s with response := previous } = raise e s := rfl

theorem storeKey_of_previous (rk : List Word) (s : State) (previous : Option Response) :
    storeKey rk { s with response := previous } = { storeKey rk s with response := previous } := rfl

theorem clearKey_of_previous (s : State) (previous : Option Response) :
    clearKey { s with response := previous } = { clearKey s with response := previous } := rfl

theorem encryptIfKeyed_of_previous (s : State) (previous : Option Response) (p : Block) :
    encryptIfKeyed { s with response := previous } p = encryptIfKeyed s p := rfl

theorem decryptIfKeyed_of_previous (s : State) (previous : Option Response) (v : Block) :
    decryptIfKeyed { s with response := previous } v = decryptIfKeyed s v := rfl

theorem finish_of_previous (r : Except BlockError Result) (s : State) (previous : Option Response) :
    finish r { s with response := previous } = finish r s := by
  cases r with
  | ok res => rw [finish_ok, finish_ok, respond_of_previous]
  | error e => rw [finish_error, finish_error, respond_of_previous]

theorem loadKey_of_previous (accepted : Bool) (count : Nat) (key : List Word) (s : State)
    (previous : Option Response) :
    loadKey accepted count key { s with response := previous } = loadKey accepted count key s := by
  simp only [loadKey, storeKey_of_previous, respond_of_previous, raise_of_previous]

/-- Settles O49, by cases on the command: each ends in `finish`, `loadKey` or `respond`, none of which sees the previous
response, and computes what it answers from the other fields. -/
theorem noCommandReadsAnEarlierResponse : Obligations.NoCommandReadsAnEarlierResponse := by
  intro i s previous
  cases i with
  | stat => simp only [exec_stat, finish_of_previous]
  | keyw key => simp only [exec_keyw, loadKey_of_previous]
  | keyb kb => simp only [exec_keyb, loadKey_of_previous]
  | keyclr => simp only [exec_keyclr, clearKey_of_previous, respond_of_previous]
  | enc data => simp only [exec_enc, finish_of_previous]
  | dec data => simp only [exec_dec, finish_of_previous]
  | pack r y m d q => simp only [exec_pack, finish_of_previous]
  | unpack data => simp only [exec_unpack, finish_of_previous]
  | encode r y m d q => simp only [exec_encode, encryptIfKeyed_of_previous, finish_of_previous]
  | decode data => simp only [exec_decode, decryptIfKeyed_of_previous, finish_of_previous]

end Sys2Proof.Machine
end

section
/-! The canonical words of the five formats as numbers (spec/30_encoding.md R63 to R67): a word of a concatenation is a
positional number, read off part by part. -/

namespace Sys2Proof

/-- A field's own bits spell its value. -/
@[simp] theorem natOf_bitsOf_toNat {n : Nat} (x : BitVec n) : natOf (bitsOf n x.toNat) = x.toNat := by
  rw [natOf_bitsOf, Nat.mod_eq_of_lt x.isLt]

theorem natOf_append_div (a b : List Bool) : natOf (a ++ b) / 2 ^ b.length = natOf a := by
  rw [natOf_append, Nat.mul_comm, Nat.mul_add_div (Nat.two_pow_pos _), Nat.div_eq_of_lt (natOf_lt b), Nat.add_zero]

theorem natOf_append_bitsOf_mod (a : List Bool) {n : Nat} (x : BitVec n) :
    natOf (a ++ bitsOf n x.toNat) % 2 ^ n = x.toNat := by
  rw [natOf_append, length_bitsOf, natOf_bitsOf_toNat, Nat.mul_add_mod_self_right, Nat.mod_eq_of_lt x.isLt]

theorem natOf_encodeF (r : BitVec 20) (y : BitVec 14) (m : BitVec 4) (d : BitVec 5) (q : BitVec 10) :
    natOf (encodeF r y m d q) =
      r.toNat * 2 ^ 33 + y.toNat * 2 ^ 19 + m.toNat * 2 ^ 15 + d.toNat * 2 ^ 10 + q.toNat := by
  simp only [encodeF, natOf_append, natOf_bitsOf_toNat, List.length_append, length_bitsOf, Nat.reduceAdd, Nat.add_assoc]

/-- Format D: `OP` above the 64 bits of `DATA` (R66). -/
theorem natOf_opcode_data {op : Nat} (hop : op < 2 ^ 4) (d : Block) :
    natOf (bitsOf 4 op ++ bitsOf 64 d.toNat) = op * 2 ^ 64 + d.toNat := by
  rw [natOf_append, natOf_bitsOf, Nat.mod_eq_of_lt hop, natOf_bitsOf_toNat, length_bitsOf]

/-- Format F: `OP` above the 53 bits of the five fields (R67). -/
theorem natOf_opcode_encodeF {op : Nat} (hop : op < 2 ^ 4) (r : BitVec 20) (y : BitVec 14) (m : BitVec 4)
    (d : BitVec 5) (q : BitVec 10) : natOf (bitsOf 4 op ++ encodeF r y m d q) =
      op * 2 ^ 53 + r.toNat * 2 ^ 33 + y.toNat * 2 ^ 19 + m.toNat * 2 ^ 15 + d.toNat * 2 ^ 10 + q.toNat := by
  rw [natOf_append, natOf_bitsOf, Nat.mod_eq_of_lt hop, natOf_encodeF, length_encodeF]
  omega

/-- Formats W and B: above the elements stand `OP` and the count, of `c` bits (R64, R65). -/
theorem natOf_opcode_count_elements_div {op c n : Nat} (xs : List (BitVec n)) (hop : op < 2 ^ 4)
    (hc : xs.length < 2 ^ c) : natOf (bitsOf 4 op ++ (bitsOf c xs.length ++ encodeElements xs)) / 2 ^ (n * xs.length) =
      op * 2 ^ c + xs.length := by
  rw [← List.append_assoc, ← length_encodeElements, natOf_append_div, natOf_append, natOf_bitsOf, natOf_bitsOf,
    Nat.mod_eq_of_lt hop, Nat.mod_eq_of_lt hc, length_bitsOf]

/-- Each element stands in its place, element 0 in the most significant one, below any `front`. -/
theorem natOf_encodeElements_place {n : Nat} (xs : List (BitVec n)) (front : List Bool) {j : Nat}
    (hj : j < xs.length) :
    natOf (front ++ encodeElements xs) / 2 ^ (n * (xs.length - 1 - j)) % 2 ^ n = (xs.getD j 0).toNat := by
  induction xs generalizing front j with
  | nil => cases hj
  | cons x xs ih =>
    rw [encodeElements_cons, ← List.append_assoc]
    cases j with
    | zero =>
      rw [List.getD_cons_zero, List.length_cons, Nat.add_sub_cancel, Nat.sub_zero, ← length_encodeElements,
        natOf_append_div, natOf_append_bitsOf_mod]
    | succ j =>
      have hplace : (x :: xs).length - 1 - (j + 1) = xs.length - 1 - j := by rw [List.length_cons]; omega
      rw [hplace, List.getD_cons_succ]
      exact ih _ (Nat.lt_of_succ_lt_succ hj)

/-- Settles O4: each format's word is `OP` above its operand bits. -/
theorem wordsOfTheFixedLengthFormats : Obligations.WordsOfTheFixedLengthFormats := by
  refine ⟨⟨rfl, rfl, rfl, rfl⟩, fun d => ⟨?_, ?_, ?_, ?_⟩, fun r y m d q => ⟨?_, ?_⟩⟩
  · exact ⟨natOf_opcode_data (by decide) d, Laws.WordLength.enc d⟩
  · exact ⟨natOf_opcode_data (by decide) d, Laws.WordLength.dec d⟩
  · exact ⟨natOf_opcode_data (by decide) d, Laws.WordLength.unpack d⟩
  · exact ⟨natOf_opcode_data (by decide) d, Laws.WordLength.decode d⟩
  · exact ⟨natOf_opcode_encodeF (by decide) r y m d q, Laws.WordLength.pack r y m d q⟩
  · exact ⟨natOf_opcode_encodeF (by decide) r y m d q, Laws.WordLength.encode r y m d q⟩

/-- Settles O5: formats W and B differ in the widths of the count and of the elements alone. -/
theorem wordsOfFormatsWAndB : Obligations.WordsOfFormatsWAndB := by
  refine ⟨fun key hcount => ⟨Laws.WordLength.keyw key, ?_, fun j hj => ?_⟩,
    fun kb hcount => ⟨Laws.WordLength.keyb kb, ?_, fun j hj => ?_⟩⟩
  · exact natOf_opcode_count_elements_div key (by decide) (by omega)
  · rw [encode, ← List.append_assoc]
    exact natOf_encodeElements_place key _ hj
  · exact natOf_opcode_count_elements_div kb (by decide) (by omega)
  · rw [encode, ← List.append_assoc]
    exact natOf_encodeElements_place kb _ hj

end Sys2Proof
end

section
/-! The port's answer to a reserved opcode (spec/30_encoding.md R87, spec/60_exceptions.md R221). -/

namespace Sys2Proof

/-- The opcode map (R62) ends at 9. -/
theorem decodeOperands_reserved {op : BitVec 4} (h : 10 ≤ op.toNat) (rest : List Bool) :
    decodeOperands op rest = .error (.reserved op) := by
  obtain ⟨k, hk⟩ := Nat.exists_eq_add_of_le' h
  rw [decodeOperands, hk]
  rfl

end Sys2Proof

namespace Sys2Proof.Machine

theorem acceptCommand_reserved {w : CommandWord} {op : BitVec 4} {s : State} (hr : s.wasReset = true)
    (hd : decode w = .error (.reserved op)) :
    acceptCommand w s = .done (.next (raise (.illegalCommand op) s)) := by
  simp [acceptCommand, hr, hd]

/-- Settles O7: the word is decoded by its first four bits alone, and the port raises the error. -/
theorem reservedOpcodeRaisesIllegalCommand : Obligations.ReservedOpcodeRaisesIllegalCommand := by
  intro s op operands rest hop hr hstream
  have hd : decode (bitsOf 4 op.toNat ++ operands) = .error (.reserved op) := by
    rw [decode_opcode_append, decodeOperands_reserved hop]
  refine ⟨?_, rfl⟩
  rw [step_cons s hstream, acceptInput_command, acceptCommand_reserved (s := consume rest s) hr hd]
  rfl

end Sys2Proof.Machine
end

section
/-! The STAT status word (spec/30_encoding.md R86) as a number; its fields do not overlap. -/

namespace Sys2Proof.Machine

/-- A field put above all the bits in use adds its value at its place. -/
theorem toNat_or_ofNat_shiftLeft {x : Block} {v k y : Nat} (hx : x.toNat = v) (hv : v < 2 ^ k)
    (hy : y * 2 ^ k < 2 ^ 64) : (x ||| (BitVec.ofNat 64 y <<< k)).toNat = v + y * 2 ^ k := by
  have hlt : y < 2 ^ 64 := lt_of_le_of_lt (Nat.le_mul_of_pos_right y (Nat.two_pow_pos k)) hy
  rw [BitVec.toNat_or, hx, BitVec.toNat_shiftLeft, BitVec.toNat_ofNat, Nat.mod_eq_of_lt hlt, Nat.shiftLeft_eq,
    Nat.mod_eq_of_lt hy, Nat.or_comm, ← Nat.shiftLeft_eq, ← Nat.shiftLeft_add_eq_or_of_lt hv, Nat.shiftLeft_eq,
    Nat.add_comm]

theorem statusWord_toNat (c : Config) (keyValid : Bool) : (statusWord c keyValid).toNat =
    keyValid.toNat + 2 ^ 4 + c.rounds * 2 ^ 8 + c.alpha * 2 ^ 16 + c.beta * 2 ^ 24 + c.nMax * 2 ^ 32 := by
  have hk := keyValid.toNat_lt
  obtain ⟨-, hT⟩ := c.rounds_legal
  have hA := c.alpha_legal
  have hB := c.beta_legal
  obtain ⟨-, hN⟩ := c.nMax_legal
  have flagAndVersion : (BitVec.ofNat 64 keyValid.toNat ||| (formatVersion.setWidth 64 <<< 4)).toNat =
      keyValid.toNat + 2 ^ 4 := by cases keyValid <;> rfl
  have withT := toNat_or_ofNat_shiftLeft (k := 8) (y := c.rounds) flagAndVersion (by omega) (by omega)
  have withAlpha := toNat_or_ofNat_shiftLeft (k := 16) (y := c.alpha) withT (by omega) (by omega)
  have withBeta := toNat_or_ofNat_shiftLeft (k := 24) (y := c.beta) withAlpha (by omega) (by omega)
  exact toNat_or_ofNat_shiftLeft (k := 32) (y := c.nMax) withBeta (by omega) (by omega)

/-- A bit field of the status word, as a quotient and a remainder of that number. -/
theorem statusWord_field_toNat (c : Config) (keyValid : Bool) (start len : Nat) :
    ((statusWord c keyValid).extractLsb' start len).toNat =
      (keyValid.toNat + 2 ^ 4 + c.rounds * 2 ^ 8 + c.alpha * 2 ^ 16 + c.beta * 2 ^ 24 + c.nMax * 2 ^ 32) /
        2 ^ start % 2 ^ len := by
  rw [BitVec.extractLsb'_toNat, Nat.shiftRight_eq_div_pow, statusWord_toNat]

/-- A bit field of the status word is `v` when the quotient and remainder are. -/
theorem statusWord_field_eq_ofNat {c : Config} {keyValid : Bool} {start len v : Nat}
    (h : (keyValid.toNat + 2 ^ 4 + c.rounds * 2 ^ 8 + c.alpha * 2 ^ 16 + c.beta * 2 ^ 24 + c.nMax * 2 ^ 32) /
      2 ^ start % 2 ^ len = v) : (statusWord c keyValid).extractLsb' start len = BitVec.ofNat len v := by
  rw [← h, ← statusWord_field_toNat, BitVec.ofNat_toNat, BitVec.setWidth_eq]

/-- Settles O14: each field is read off the status word as a number; the bounds are the legal ranges of R7. -/
theorem statAnswersTheStatusWord : Obligations.StatAnswersTheStatusWord := by
  refine ⟨fun s => ⟨statusWord s.inst s.keyValid, exec_stat s, ?_⟩, rfl, rfl⟩
  have field := statusWord_field_toNat s.inst s.keyValid
  have hk := s.keyValid.toNat_lt
  obtain ⟨-, hT⟩ := s.inst.rounds_legal
  have hA := s.inst.alpha_legal
  have hB := s.inst.beta_legal
  obtain ⟨-, hN⟩ := s.inst.nMax_legal
  refine ⟨?keyValid, ?zero, ?version, ?rounds, ?alpha, ?beta, ?nMax, ?top⟩
  case keyValid => apply BitVec.eq_of_toNat_eq; rw [field, BitVec.toNat_ofBool]; omega
  case zero => exact statusWord_field_eq_ofNat (v := 0) (by omega)
  case version => exact statusWord_field_eq_ofNat (v := 1) (by omega)
  case rounds => rw [field]; omega
  case alpha => rw [field]; omega
  case beta => rw [field]; omega
  case nMax => rw [field]; omega
  case top => exact statusWord_field_eq_ofNat (v := 0) (by omega)

end Sys2Proof.Machine
end

section
/-! The key commands and the two cipher commands (spec/40_cipher.md R103 to R105, R107, R109), each as what it does to
the state. -/

namespace Sys2Proof.Machine

/-- A key that passes its length check is expanded and stored. -/
theorem loadKey_of_accepted {accepted : Bool} (h : accepted = true) (count : Nat) (key : List Word) (s : State) :
    loadKey accepted count key s =
      .next { s with rk := expand s.inst key, keyValid := true, response := some (.ok .nothing) } := by
  subst h; rfl

/-- A key that fails its length check raises `InvalidKey` with the presented count. -/
theorem loadKey_of_rejected {accepted : Bool} (h : accepted = false) (count : Nat) (key : List Word) (s : State) :
    loadKey accepted count key s = .next { s with response := some (.err (.invalidKey count)) } := by
  subst h; rfl

/-- Settles O15: the length check is R103's, and its two outcomes are those of `loadKey`. -/
theorem keywLoadsTheExpandedKeyOrRejects : Obligations.KeywLoadsTheExpandedKeyOrRejects := by
  intro key s
  rw [exec_keyw]
  refine ⟨fun h => loadKey_of_accepted (decide_eq_true h) _ _ s, fun h => ?_⟩
  exact loadKey_of_rejected (decide_eq_false (by omega)) _ _ s

/-- R42: word `j` of a key is formed from bytes `4j` to `4j+3`. -/
theorem getD_wordsOfBytes {kb : List Byte} {j : Nat} (h : j < (wordsOfBytes kb).length) :
    (wordsOfBytes kb).getD j 0 = wordOfBytes (kb.getD (4 * j) 0) (kb.getD (4 * j + 1) 0) (kb.getD (4 * j + 2) 0)
      (kb.getD (4 * j + 3) 0) := by
  induction kb using wordsOfBytes.induct generalizing j with
  | case1 b0 b1 b2 b3 rest ih =>
    cases j with
    | zero => rfl
    | succ j => exact ih (Nat.lt_of_succ_lt_succ h)
  | case2 kb hshort =>
    have hnil : wordsOfBytes kb = [] := by rw [wordsOfBytes]; exact hshort
    rw [hnil] at h
    cases h

/-- Settles O16: the key is `wordsOfBytes kb`, whose length passes KEYW's check exactly when `NB` passes KEYB's. -/
theorem keybLoadsTheLittleEndianKeyOrRejects : Obligations.KeybLoadsTheLittleEndianKeyOrRejects := by
  intro kb s
  rw [exec_keyb]
  refine ⟨fun haccepted => ?_, fun hrejected => ?_⟩
  · have hload := loadKey_of_accepted (decide_eq_true haccepted) kb.length (wordsOfBytes kb) s
    have hlength := length_wordsOfBytes kb
    obtain ⟨-, hmin, hmax⟩ := haccepted
    refine ⟨wordsOfBytes kb, hlength, fun j hj => ?_, hload, ?_⟩
    · rw [getD_wordsOfBytes hj, wordOfBytes_toNat]
    · rw [hload]
      exact (keywLoadsTheExpandedKeyOrRejects _ s).1 ⟨hlength ▸ hmin, hlength ▸ hmax⟩
  · exact loadKey_of_rejected (decide_eq_false (by omega)) _ _ s

/-- Settles O18: `clearKey` is R105's whole effect, and reads no key. -/
theorem keyclrRemovesTheKey : Obligations.KeyclrRemovesTheKey := exec_keyclr

/-- Settles O25, by KEY_VALID. -/
theorem encAndDecAnswer : Obligations.EncAndDecAnswer := by
  intro data s
  rw [exec_enc, exec_dec]
  refine ⟨fun hkey => ?_, fun hkey => ?_⟩
  · rw [if_pos hkey, if_pos hkey]
    exact ⟨finish_ok _ s, finish_ok _ s⟩
  · rw [if_neg (by simp [hkey]), if_neg (by simp [hkey])]
    exact ⟨finish_error _ s, finish_error _ s⟩

end Sys2Proof.Machine
end

section
/-! The cipher over its rounds (spec/40_cipher.md R106, R108, R110): both directions fold one round over a list of round
keys. -/

namespace Sys2Proof.Machine

/-- Folding a step back over the reversed list undoes the fold, when one step back undoes one step. -/
theorem foldl_reverse_foldl_of_undo {α β : Type} {forth back : β → α → β} (undo : ∀ b a, back (forth b a) a = b)
    (as : List α) (b : β) : as.reverse.foldl back (as.foldl forth b) = b := by
  induction as generalizing b with
  | nil => rfl
  | cons a as ih => rw [List.foldl_cons, List.reverse_cons, List.foldl_append, ih]; exact undo b a

/-- Settles O24: the rounds undo each other one by one, and the halves are the block. -/
theorem decryptInvertsEncrypt : Obligations.DecryptInvertsEncrypt := by
  intro c rk x
  refine ⟨?_, ?_⟩
  · rw [decrypt, encrypt, splitBlock_joinHalves, foldl_reverse_foldl_of_undo (decryptRound_encryptRound c),
      joinHalves_splitBlock]
  · have h := foldl_reverse_foldl_of_undo (encryptRound_decryptRound c) rk.reverse (splitBlock x)
    rw [List.reverse_reverse] at h
    rw [decrypt, encrypt, splitBlock_joinHalves, h, joinHalves_splitBlock]

/-- The halves of `v` after the first `n` of the round keys `ks`, one `round` for each. -/
def halvesAfter (round : Halves → Word → Halves) (ks : List Word) (v : Block) (n : Nat) : Halves :=
  (ks.take n).foldl round (splitBlock v)

section
variable (round : Halves → Word → Halves) (ks : List Word) (v : Block)

theorem halvesAfter_zero : halvesAfter round ks v 0 = splitBlock v := rfl

theorem halvesAfter_succ {n : Nat} (h : n < ks.length) :
    halvesAfter round ks v (n + 1) = round (halvesAfter round ks v n) (ks.getD n 0) := by
  rw [halvesAfter, List.take_succ_eq_append_getElem h, List.foldl_append, List.getD_eq_getElem _ _ h]
  rfl

theorem halvesAfter_length : halvesAfter round ks v ks.length = ks.foldl round (splitBlock v) := by
  rw [halvesAfter, List.take_length]

end

/-- Settles O22: round `i` takes round key `i`. -/
theorem encryptFollowsTheRounds : Obligations.EncryptFollowsTheRounds := by
  intro c rk v
  refine ⟨fun i => (halvesAfter (encryptRound c) rk v i).high, fun i => (halvesAfter (encryptRound c) rk v i).low,
    rfl, rfl, fun i hi => ?_, ?_⟩
  · simp only [halvesAfter_succ _ rk v hi]
    exact ⟨rfl, rfl⟩
  · rw [encrypt, ← halvesAfter_length]
    rfl

/-- Settles O23: round `n` takes round key `n` of the reversed list. -/
theorem decryptFollowsTheRounds : Obligations.DecryptFollowsTheRounds := by
  intro c rk v
  refine ⟨fun n => (halvesAfter (decryptRound c) rk.reverse v n).high,
    fun n => (halvesAfter (decryptRound c) rk.reverse v n).low, rfl, rfl, fun n hn => ?_, ?_⟩
  · have hn' : n < rk.reverse.length := by rwa [List.length_reverse]
    simp only [halvesAfter_succ _ rk.reverse v hn', List.getD_reverse n hn]
    exact ⟨rfl, rfl⟩
  · rw [decrypt, ← halvesAfter_length, List.length_reverse]
    rfl

end Sys2Proof.Machine
end

section
/-! The key schedule (spec/40_cipher.md R102), iteration by iteration. -/

namespace Sys2Proof.Machine

/-- What an iteration of the key schedule works on: the buffer `S` and the last round key. -/
structure Schedule where
  buffer : List Word
  roundKey : Word

/-- Iteration `i` of R102. -/
def Schedule.next (c : Config) (i : Nat) (p : Schedule) : Schedule :=
  let j := i % p.buffer.length
  let sj := scheduleWord c i (p.buffer.getD j 0) p.roundKey
  ⟨p.buffer.set j sj, rol32 p.roundKey c.beta ^^^ sj⟩

/-- The schedule of `key` as iteration `i` finds it. -/
def scheduleAt (c : Config) (key : List Word) : Nat → Schedule
  | 0 => ⟨key.dropLast, key.getLastD 0⟩
  | i + 1 => (scheduleAt c key i).next c i

theorem scheduleAt_succ (c : Config) (key : List Word) (i : Nat) :
    scheduleAt c key (i + 1) = (scheduleAt c key i).next c i := rfl

/-- One iteration of the model's loop. -/
theorem scheduleFrom_succ (c : Config) (n i : Nat) (p : Schedule) :
    scheduleFrom c (n + 1) i p.buffer p.roundKey =
      (p.next c i).roundKey :: scheduleFrom c n (i + 1) (p.next c i).buffer (p.next c i).roundKey := rfl

theorem length_scheduleAt_buffer (c : Config) (key : List Word) (i : Nat) :
    (scheduleAt c key i).buffer.length = key.length - 1 := by
  induction i with
  | zero => exact List.length_dropLast
  | succ i ih => rw [← ih]; exact List.length_set

/-- The buffer has `N-1` words, so iteration `i` replaces its word `i mod (N-1)`. -/
theorem scheduleAt_succ_buffer (c : Config) (key : List Word) (i : Nat) :
    (scheduleAt c key (i + 1)).buffer = (scheduleAt c key i).buffer.set (i % (key.length - 1))
      (scheduleWord c i ((scheduleAt c key i).buffer.getD (i % (key.length - 1)) 0) (scheduleAt c key i).roundKey) := by
  rw [← length_scheduleAt_buffer c key i]
  rfl

/-- The next round key takes the word that the iteration has just put into the buffer. -/
theorem scheduleAt_succ_roundKey (c : Config) {key : List Word} (hkey : 2 ≤ key.length) (i : Nat) :
    (scheduleAt c key (i + 1)).roundKey = rol32 (scheduleAt c key i).roundKey c.beta ^^^
      (scheduleAt c key (i + 1)).buffer.getD (i % (key.length - 1)) 0 := by
  have hlength := length_scheduleAt_buffer c key i
  have hj : i % (key.length - 1) < (scheduleAt c key i).buffer.length := hlength ▸ Nat.mod_lt _ (by omega)
  rw [scheduleAt_succ_buffer, List.getD_eq_getElem _ _ (by rwa [List.length_set]), List.getElem_set_self, ← hlength]
  rfl

/-- The model's loop, entered at iteration `i`, gives the round keys of the iterations from there on. -/
theorem getD_scheduleFrom (c : Config) (key : List Word) {n m : Nat} (i : Nat) (hm : m < n) :
    (scheduleFrom c n i (scheduleAt c key i).buffer (scheduleAt c key i).roundKey).getD m 0 =
      (scheduleAt c key (i + m + 1)).roundKey := by
  induction n generalizing i m with
  | zero => cases hm
  | succ n ih =>
    rw [scheduleFrom_succ, ← scheduleAt_succ]
    cases m with
    | zero => rfl
    | succ m =>
      rw [List.getD_cons_succ, ih (i + 1) (Nat.lt_of_succ_lt_succ hm), show i + 1 + m = i + (m + 1) by omega]

/-- Round key `i` is the one that iteration `i` finds. -/
theorem getD_expand (c : Config) (key : List Word) {i : Nat} (hi : i < c.rounds) :
    (expand c key).getD i 0 = (scheduleAt c key i).roundKey := by
  cases i with
  | zero => rfl
  | succ i =>
    have h := getD_scheduleFrom c key 0 (show i < c.rounds - 1 by omega)
    rwa [Nat.zero_add] at h

theorem getLastD_eq_getD (key : List Word) : key.getLastD 0 = key.getD (key.length - 1) 0 := by
  rw [List.getLastD_eq_getLast?, List.getLast?_eq_getElem?, List.getD_eq_getElem?_getD]

/-- Settles O20: `S` is the buffer of `scheduleAt`. -/
theorem expandFollowsTheSchedule : Obligations.ExpandFollowsTheSchedule := by
  intro c key hkey
  refine ⟨fun i => (scheduleAt c key i).buffer, List.dropLast_eq_take, length_expand c key, getLastD_eq_getD key,
    fun i hi => ?_⟩
  rw [getD_expand c key hi, getD_expand c key (Nat.lt_of_succ_lt hi)]
  exact ⟨scheduleAt_succ_buffer c key i, scheduleAt_succ_roundKey c hkey i⟩

end Sys2Proof.Machine
end

section
/-! The bit-field packer (spec/41_bitfield.md): the date of a day offset, and the checks of PACK and UNPACK in their
order. -/

namespace Sys2Proof.Machine

/-- Settles O29: existence is `dateFromDays_spec`, uniqueness that `dateFromDays` undoes `daysFromEpoch`. The bound of
2^22 is not needed. -/
theorem dateFromDaysIsTheOneDate : Obligations.DateFromDaysIsTheOneDate := by
  intro off _
  refine ⟨dateFromDays_spec off, year_gt_iff off, fun y m d hmonth hmonth' hday hday' hoff => ?_⟩
  rw [← hoff]
  exact dateFromDays_daysFromEpoch hmonth hmonth' hday hday'

/-- A check passes its error to the response; what the later checks answer is answered when it does not fail. -/
theorem finish_check {failed : Prop} [Decidable failed] {e : BlockError} {later : Except BlockError Result}
    {answer : Response} {s : State} (h : finish later s = .next (respond answer s)) :
    finish (if failed then .error e else later) s = .next (respond (if failed then .err e else answer) s) := by
  split
  · exact finish_error e s
  · exact h

theorem map_check {failed : Prop} [Decidable failed] {α β : Type} (f : α → β) (e : BlockError)
    (later : Except BlockError α) :
    (if failed then .error e else later).map f = if failed then .error e else later.map f :=
  apply_ite (Except.map f) failed _ _

theorem isFeb29_toNat (m : BitVec 4) (d : BitVec 5) : isFeb29 m.toNat d.toNat = decide (m = 2 ∧ d = 29) := by
  simp [isFeb29, BitVec.toNat_eq]

/-- Settles O33, check by check in R140's order. -/
theorem packChecksInOrderAndPacks : Obligations.PackChecksInOrderAndPacks := by
  intro r y m d q s
  rw [exec_pack, ← isFeb29_toNat]
  simp only [packChecked, map_check]
  exact finish_check (finish_check (finish_check (finish_check (finish_check (finish_check (finish_ok _ s))))))

/-- Settles O36, check by check in R145's order. -/
theorem unpackChecksInOrderAndUnpacks : Obligations.UnpackChecksInOrderAndUnpacks := by
  intro v s
  refine ⟨dateFromDays (offsetOf v).toNat, rfl, ?_⟩
  rw [exec_unpack]
  exact finish_check (finish_check (finish_check (finish_check (finish_check (finish_ok _ s)))))

end Sys2Proof.Machine
end

section
/-! The composed commands (spec/42_composer.md R170, R171, R173): PACK's or UNPACK's checks around one cipher stage. -/

namespace Sys2Proof.Machine

section
variable {s : State}

theorem encryptIfKeyed_of_key (h : s.keyValid = true) (p : Block) : encryptIfKeyed s p = encrypt s.inst s.rk p :=
  if_pos h

theorem encryptIfKeyed_of_noKey (h : s.keyValid = false) (p : Block) : encryptIfKeyed s p = p :=
  if_neg (Bool.eq_false_iff.mp h)

theorem decryptIfKeyed_of_key (h : s.keyValid = true) (v : Block) : decryptIfKeyed s v = decrypt s.inst s.rk v :=
  if_pos h

theorem decryptIfKeyed_of_noKey (h : s.keyValid = false) (v : Block) : decryptIfKeyed s v = v :=
  if_neg (Bool.eq_false_iff.mp h)

end

section
variable {r : BitVec 20} {y : BitVec 14} {m : BitVec 4} {d : BitVec 5} {q : BitVec 10}

theorem exec_pack_of_packed {p : Block} (h : packChecked ⟨r, y, m, d, q⟩ = .ok p) (s : State) :
    exec (.pack r y m d q) s = .next (respond (.ok (.data p)) s) := by
  rw [exec_pack, h]
  rfl

theorem exec_encode_of_packed {p : Block} (h : packChecked ⟨r, y, m, d, q⟩ = .ok p) (s : State) :
    exec (.encode r y m d q) s = .next (respond (.ok (.data (encryptIfKeyed s p))) s) := by
  rw [exec_encode, h]
  rfl

theorem exec_pack_of_error {e : BlockError} (h : packChecked ⟨r, y, m, d, q⟩ = .error e) (s : State) :
    exec (.pack r y m d q) s = .next (respond (.err e) s) := by
  rw [exec_pack, h]
  rfl

theorem exec_encode_of_error {e : BlockError} (h : packChecked ⟨r, y, m, d, q⟩ = .error e) (s : State) :
    exec (.encode r y m d q) s = .next (respond (.err e) s) := by
  rw [exec_encode, h]
  rfl

end

/-- R173: DECODE is UNPACK on what the cipher stage gives. -/
theorem exec_decode_eq_exec_unpack (data : Block) (s : State) :
    exec (.decode data) s = exec (.unpack (decryptIfKeyed s data)) s := by
  rw [exec_decode, exec_unpack]

/-- Settles O39: PACK and ENCODE share PACK's checks, and only a packed word reaches the cipher stage. -/
theorem encodePacksThenEncrypts : Obligations.EncodePacksThenEncrypts := by
  intro r y m d q s p hp
  refine ⟨fun hlegal => ?_, fun hillegal => ?_⟩
  · have hpacked : packChecked ⟨r, y, m, d, q⟩ = .ok p := packChecked_eq_ok.mpr ⟨hlegal, hp⟩
    have hencode := exec_encode_of_packed hpacked s
    refine ⟨exec_pack_of_packed hpacked s, fun hkey => ?_, fun hnoKey => ?_⟩
    · rwa [encryptIfKeyed_of_key hkey] at hencode
    · rwa [encryptIfKeyed_of_noKey hnoKey] at hencode
  · obtain ⟨e, he⟩ := packChecked_illegal hillegal
    exact ⟨e, exec_pack_of_error he s, exec_encode_of_error he s⟩

/-- Settles O40: the word is what the cipher stage gives, and UNPACK answers every word. -/
theorem decodeAnswersWhatUnpackAnswers : Obligations.DecodeAnswersWhatUnpackAnswers := by
  intro data s
  obtain ⟨answer, hanswer⟩ := finish_answers (unpackChecked (decryptIfKeyed s data)) s
  rw [← exec_unpack] at hanswer
  exact ⟨decryptIfKeyed s data, answer, fun hkey => decryptIfKeyed_of_key hkey data,
    fun hnoKey => decryptIfKeyed_of_noKey hnoKey data, hanswer, (exec_decode_eq_exec_unpack data s).trans hanswer⟩

end Sys2Proof.Machine
end

section
/-! A command that raises (spec/60_exceptions.md R223): the two outcomes that write the key state both answer OK. -/

namespace Sys2Proof.Machine

/-- The delivered response decides the answer of an outcome that ends in `respond`. -/
theorem eq_respond_of_response_eq {r answer : Response} {u t : State}
    (h : (.next (respond answer u) : StepOutcome) = .next t) (hr : t.response = some r) :
    answer = r ∧ t = respond answer u := by
  cases h
  exact ⟨Option.some.inj hr, rfl⟩

/-- A command that ends in an error has done nothing but raise it. -/
theorem eq_raise_of_exec_error {i : Instr} {s t : State} {e : BlockError} (h : exec i s = .next t)
    (he : t.response = some (.err e)) : t = raise e s := by
  obtain ⟨answer, hanswer⟩ | ⟨-, key, -, -, hload⟩ | ⟨-, hclear⟩ := exec_cases i s
  · obtain ⟨rfl, ht⟩ := eq_respond_of_response_eq (hanswer.symm.trans h) he
    exact ht
  · obtain ⟨hok, -⟩ := eq_respond_of_response_eq (hload.symm.trans h) he
    cases hok
  · obtain ⟨hok, -⟩ := eq_respond_of_response_eq (hclear.symm.trans h) he
    cases hok

/-- Settles O46: the state is the one that `raise` leaves, and the record of an error has no result fields. -/
theorem anErrorChangesNothing : Obligations.AnErrorChangesNothing := by
  intro i s t e hexec hresponse
  exact ⟨eq_raise_of_exec_error hexec hresponse, rfl⟩

end Sys2Proof.Machine
end

section
/-! The block between power-up and its first reset (spec/70_reset_and_hazards.md R242). -/

namespace Sys2Proof.Machine

/-- Settles O12: the port refuses the word before it is decoded, and taking it off the stream resets nothing. -/
theorem commandBeforeFirstResetHasNoMeaning : Obligations.CommandBeforeFirstResetHasNoMeaning := by
  intro s w rest hbefore hstream
  have hconsumed : (consume rest s).wasReset = false := (consume_wasReset rest s).trans hbefore
  rw [step_cons s hstream, acceptInput_command, acceptCommand_before_reset w _ hconsumed]
  rfl

end Sys2Proof.Machine
end

section
/-! The decoder and the encoder are inverse (spec/30_encoding.md R61 to R69): each format's operand bits are those of
the command read from them. -/

namespace Sys2Proof

/-- Settles O1, by cases on the command: its first four bits select the format whose reader undoes its writer. -/
theorem decodeOfEncodeIsTheCommand : Obligations.DecodeOfEncodeIsTheCommand := by
  intro i hwf
  cases i with
  | stat => rfl
  | keyw key => exact (decode_opcode_append 0x1 _).trans (decodeW_encode key (of_decide_eq_true hwf))
  | keyb kb => exact (decode_opcode_append 0x2 _).trans (decodeB_encode kb (of_decide_eq_true hwf))
  | keyclr => rfl
  | enc data => exact (decode_opcode_append 0x4 _).trans (decodeD_encode .enc data)
  | dec data => exact (decode_opcode_append 0x5 _).trans (decodeD_encode .dec data)
  | pack r y m d q => exact (decode_opcode_append 0x6 _).trans (decodeF_encode .pack r y m d q)
  | unpack data => exact (decode_opcode_append 0x7 _).trans (decodeD_encode .unpack data)
  | encode r y m d q => exact (decode_opcode_append 0x8 _).trans (decodeF_encode .encode r y m d q)
  | decode data => exact (decode_opcode_append 0x9 _).trans (decodeD_encode .decode data)

/-- A field's own bits, written back before the bits that follow it. -/
theorem bitsOf_field_append_drop (n : Nat) (bs : List Bool) (h : n ≤ bs.length) :
    bitsOf n (field n bs).toNat ++ bs.drop n = bs := by
  rw [bitsOf_field n bs h, List.take_append_drop]

/-- Formats W and B: a count of `c` bits and the elements it counts, written back. -/
theorem count_encodeElements_elements {c n : Nat} {rest : List Bool}
    (h : rest.length = c + n * (field c rest).toNat) :
    bitsOf c (field c rest).toNat ++ encodeElements (elements n (field c rest).toNat (rest.drop c)) = rest := by
  have hdrop : (rest.drop c).length = n * (field c rest).toNat := by rw [List.length_drop, h, Nat.add_sub_cancel_left]
  rw [encodeElements_elements _ _ _ hdrop, bitsOf_field_append_drop _ _ (by omega)]

/-- Format F: the five fields, written back. -/
theorem encodeF_fields {rest : List Bool} (h : rest.length = 53) :
    encodeF (field 20 rest) (field 14 (rest.drop 20)) (field 4 (rest.drop 34)) (field 5 (rest.drop 38))
      (field 10 (rest.drop 43)) = rest := by
  have split (a n : Nat) (hn : a + n ≤ 53) :
      bitsOf n (field n (rest.drop a)).toNat ++ rest.drop (a + n) = rest.drop a := by
    rw [← List.drop_drop]
    exact bitsOf_field_append_drop _ _ (by rw [List.length_drop]; omega)
  have hend : rest.drop 53 = [] := List.drop_eq_nil_of_le h.le
  have hseq := split 43 10 (by decide)
  rw [hend, List.append_nil] at hseq
  rw [encodeF, hseq, split 38 5 (by decide), split 34 4 (by decide), split 20 14 (by decide)]
  exact split 0 20 (by decide)

section
variable {rest : List Bool} {i : Instr}

/-- Formats W and B differ in the widths `c` of the count and `n` of the elements alone. -/
theorem ofLength_elements_eq_ok {c n : Nat} {mk : List (BitVec n) → Instr}
    (h : ofLength (c + n * (field c rest).toNat) rest (mk (elements n (field c rest).toNat (rest.drop c))) = .ok i) :
    ∃ xs : List (BitVec n), i = mk xs ∧ xs.length < 2 ^ c ∧ bitsOf c xs.length ++ encodeElements xs = rest := by
  obtain ⟨hlength, hi⟩ := ofLength_eq_ok.mp h
  refine ⟨_, hi.symm, ?_, ?_⟩ <;> rw [length_elements]
  · exact (field c rest).isLt
  · exact count_encodeElements_elements hlength

theorem decodeW_eq_ok (h : decodeW rest = .ok i) :
    ∃ key : List Word, i = .keyw key ∧ key.length < 2 ^ 8 ∧ bitsOf 8 key.length ++ encodeElements key = rest := by
  unfold decodeW at h
  split at h
  · cases h
  · exact ofLength_elements_eq_ok h

theorem decodeB_eq_ok (h : decodeB rest = .ok i) :
    ∃ kb : List Byte, i = .keyb kb ∧ kb.length < 2 ^ 16 ∧ bitsOf 16 kb.length ++ encodeElements kb = rest := by
  unfold decodeB at h
  split at h
  · cases h
  · exact ofLength_elements_eq_ok h

theorem decodeD_eq_ok {mk : Block → Instr} (h : decodeD mk rest = .ok i) :
    ∃ data : Block, i = mk data ∧ bitsOf 64 data.toNat = rest := by
  obtain ⟨hlength, hi⟩ := ofLength_eq_ok.mp h
  exact ⟨field 64 rest, hi.symm, by rw [bitsOf_field _ _ hlength.ge, List.take_of_length_le hlength.le]⟩

theorem decodeF_eq_ok {mk : BitVec 20 → BitVec 14 → BitVec 4 → BitVec 5 → BitVec 10 → Instr}
    (h : decodeF mk rest = .ok i) : ∃ r y m d q, i = mk r y m d q ∧ encodeF r y m d q = rest := by
  obtain ⟨hlength, hi⟩ := ofLength_eq_ok.mp h
  exact ⟨_, _, _, _, _, hi.symm, encodeF_fields hlength⟩

/-- The opcode map (R62) read backwards. -/
theorem encode_of_decodeOperands {op : BitVec 4} (h : decodeOperands op rest = .ok i) :
    i.wellFormed = true ∧ encode i = bitsOf 4 op.toNat ++ rest := by
  unfold decodeOperands at h
  split at h
  next hop =>
    obtain ⟨hlength, rfl⟩ := ofLength_eq_ok.mp h
    exact ⟨rfl, by rw [hop, List.length_eq_zero_iff.mp hlength]; rfl⟩
  next hop =>
    obtain ⟨key, rfl, hcount, rfl⟩ := decodeW_eq_ok h
    exact ⟨decide_eq_true (Nat.le_of_lt_succ hcount), by rw [hop]; rfl⟩
  next hop =>
    obtain ⟨kb, rfl, hcount, rfl⟩ := decodeB_eq_ok h
    exact ⟨decide_eq_true (Nat.le_of_lt_succ hcount), by rw [hop]; rfl⟩
  next hop =>
    obtain ⟨hlength, rfl⟩ := ofLength_eq_ok.mp h
    exact ⟨rfl, by rw [hop, List.length_eq_zero_iff.mp hlength]; rfl⟩
  next hop => obtain ⟨data, rfl, rfl⟩ := decodeD_eq_ok h; exact ⟨rfl, by rw [hop]; rfl⟩
  next hop => obtain ⟨data, rfl, rfl⟩ := decodeD_eq_ok h; exact ⟨rfl, by rw [hop]; rfl⟩
  next hop => obtain ⟨r, y, m, d, q, rfl, rfl⟩ := decodeF_eq_ok h; exact ⟨rfl, by rw [hop]; rfl⟩
  next hop => obtain ⟨data, rfl, rfl⟩ := decodeD_eq_ok h; exact ⟨rfl, by rw [hop]; rfl⟩
  next hop => obtain ⟨r, y, m, d, q, rfl, rfl⟩ := decodeF_eq_ok h; exact ⟨rfl, by rw [hop]; rfl⟩
  next hop => obtain ⟨data, rfl, rfl⟩ := decodeD_eq_ok h; exact ⟨rfl, by rw [hop]; rfl⟩
  next => cases h

end

/-- Settles O2: the opcode and the operand bits of a word are those of the command read from it. -/
theorem encodeOfDecodeIsTheWord : Obligations.EncodeOfDecodeIsTheWord := by
  intro w i h
  unfold decode at h
  split at h
  · cases h
  · next hlength =>
    obtain ⟨hwf, hencode⟩ := encode_of_decodeOperands h
    exact ⟨hwf, by rw [hencode, bitsOf_field_append_drop _ _ (by omega)]⟩

/-- Settles O3: each word is the canonical word of its command, whose decoding is O1. -/
theorem sampleCommandWordsDecode : Obligations.SampleCommandWordsDecode :=
  have read (i : Instr) (hwf : i.wellFormed = true) {w : CommandWord} (hw : encode i = w) : decode w = .ok i :=
    hw ▸ decodeOfEncodeIsTheCommand i hwf
  ⟨read _ rfl rfl, read _ rfl rfl, read _ rfl rfl, read _ rfl rfl, read _ rfl rfl, read _ rfl rfl, read _ rfl rfl,
    read _ rfl rfl, read _ rfl rfl⟩

end Sys2Proof
end

section
/-! What a command does to the state, in one form for all ten (spec/00_scope.md R13, spec/10_state.md section 5). -/

namespace Sys2Proof.Machine

/-- Every command delivers an answer from a state in which only a key command has touched the key, and nothing but the
key. -/
theorem exec_answers (i : Instr) (s : State) : ∃ answer u, exec i s = .next (respond answer u) ∧
    (u = s ∨ isKeyCommand i = true ∧
      ((∃ key : List Word, 2 ≤ key.length ∧ key.length ≤ s.inst.nMax ∧ u = storeKey (expand s.inst key) s) ∨
        u = clearKey s)) := by
  obtain ⟨answer, h⟩ | ⟨hkey, key, hmin, hmax, h⟩ | ⟨hkey, h⟩ := exec_cases i s
  · exact ⟨answer, s, h, .inl rfl⟩
  · exact ⟨_, _, h, .inr ⟨hkey, .inl ⟨key, hmin, hmax, rfl⟩⟩⟩
  · exact ⟨_, _, h, .inr ⟨hkey, .inr rfl⟩⟩

/-- No command touches the constants, the reset bit or the inputs to come. -/
theorem exec_frame {i : Instr} {s t : State} (h : exec i s = .next t) :
    t.inst = s.inst ∧ t.wasReset = s.wasReset ∧ t.stream = s.stream := by
  obtain ⟨answer, u, hu, hcases⟩ := exec_answers i s
  cases hu.symm.trans h
  obtain rfl | ⟨-, ⟨key, -, -, rfl⟩ | rfl⟩ := hcases
  · exact ⟨rfl, rfl, rfl⟩
  · exact ⟨rfl, rfl, rfl⟩
  · exact ⟨rfl, rfl, rfl⟩

/-- A command that is no key command answers and changes nothing else. -/
theorem exec_of_not_keyCommand {i : Instr} (hkey : isKeyCommand i = false) (s : State) :
    ∃ answer, exec i s = .next (respond answer s) := by
  obtain ⟨answer, u, hu, rfl | ⟨hkey', -⟩⟩ := exec_answers i s
  · exact ⟨answer, hu⟩
  · rw [hkey] at hkey'
    cases hkey'

/-- Settles O45: every outcome of `exec` ends in `respond`. -/
theorem everyCommandAnswers : Obligations.EveryCommandAnswers := by
  intro i s
  obtain ⟨answer, u, hu, -⟩ := exec_answers i s
  exact ⟨respond answer u, answer, hu, rfl⟩

/-- Settles O47: such a command only answers. -/
theorem onlyKeyCommandsWriteState : Obligations.OnlyKeyCommandsWriteState := by
  intro i s t hkey h
  obtain ⟨answer, hanswer⟩ := exec_of_not_keyCommand hkey s
  cases hanswer.symm.trans h
  rfl

/-- Loading the same key again finds it loaded; rejecting it again finds the same error delivered. -/
theorem loadKey_idempotent {accepted : Bool} {count : Nat} {key : List Word} {s t : State}
    (h : loadKey accepted count key s = .next t) : loadKey accepted count key t = .next t := by
  cases accepted with
  | false => cases h; rfl
  | true => cases h; rfl

/-- Settles O19: the length check reads the constants alone, and they are those of the state before. -/
theorem keyCommandsAreIdempotent : Obligations.KeyCommandsAreIdempotent := by
  intro i s t hkey h
  obtain ⟨hinst, -, -⟩ := exec_frame h
  cases i with
  | keyw key => rw [exec_keyw] at h ⊢; rw [hinst]; exact loadKey_idempotent h
  | keyb kb => rw [exec_keyb] at h ⊢; rw [hinst]; exact loadKey_idempotent h
  | keyclr => cases h; rfl
  | stat => cases hkey
  | enc data => cases hkey
  | dec data => cases hkey
  | pack r y m d q => cases hkey
  | unpack data => cases hkey
  | encode r y m d q => cases hkey
  | decode data => cases hkey

end Sys2Proof.Machine
end

section
/-! The port, input by input, and all that a step can do (spec/20_memory.md R45, R46, spec/70_reset_and_hazards.md). -/

namespace Sys2Proof.Machine

/-- Settles O6: the port of a reset block runs the command that it decodes. -/
theorem stepRunsTheDecodedCommand : Obligations.StepRunsTheDecodedCommand := by
  intro s w rest i hreset hstream hdecode
  have haccept : acceptCommand w (consume rest s) = .run i (consume rest s) := by
    simp [acceptCommand, hreset, hdecode]
  rw [step_cons s hstream, acceptInput_command, haccept]
  rfl

/-- What a step on a command word comes to, once the block has been reset. -/
theorem step_command_cases {s : State} {w : CommandWord} {rest : List HostInput} (hreset : s.wasReset = true)
    (hstream : s.stream = .command w :: rest) :
    (∃ i, decode w = .ok i ∧ step s = exec i (consume rest s)) ∨
    (∃ op, decode w = .error (.reserved op) ∧
      step s = .next (respond (.err (.illegalCommand op)) (consume rest s))) ∨
    (∃ why, decode w = .error why ∧ (∀ op, why ≠ .reserved op) ∧ step s = .fault (.malformedCommand why)) := by
  rw [step_cons s hstream, acceptInput_command]
  obtain ⟨i, hdecode, h⟩ | ⟨op, hdecode, h⟩ | ⟨why, hdecode, hwhy, h⟩ :=
    acceptCommand_cases w (consume rest s) hreset
  · exact .inl ⟨i, hdecode, by rw [h]; rfl⟩
  · exact .inr (.inl ⟨op, hdecode, by rw [h]; rfl⟩)
  · exact .inr (.inr ⟨why, hdecode, hwhy, by rw [h]; rfl⟩)

/-- Settles O8: the other two cases of a command word decode otherwise. -/
theorem malformedCommandWordStops : Obligations.MalformedCommandWordStops := by
  intro s w rest why hreset hstream hdecode hwhy
  obtain ⟨i, h, -⟩ | ⟨op, h, -⟩ | ⟨why', h, -, hstep⟩ := step_command_cases hreset hstream
  · cases hdecode.symm.trans h
  · cases hdecode.symm.trans h
    exact absurd rfl (hwhy op)
  · cases hdecode.symm.trans h
    exact hstep

/-- Settles O13: the port refuses the input whatever word it carries. -/
theorem commandPresentedEarlyHasNoMeaning : Obligations.CommandPresentedEarlyHasNoMeaning := by
  intro s w rest hstream
  rw [step_cons s hstream, acceptInput_early]
  rfl

/-- The inputs whose whole effect is a reset (R235, R240, R241). -/
def resets : HostInput → Bool
  | .command _ => false
  | .earlyCommand _ => false
  | .commandCutByReset _ => true
  | .reset => true
  | .powerLoss retained => !retained

theorem step_of_resets {s : State} {input : HostInput} {rest : List HostInput} (hresets : resets input = true)
    (hstream : s.stream = input :: rest) : step s = .next (resetBlock (consume rest s)) := by
  rw [step_cons s hstream]
  cases input with
  | command w => cases hresets
  | earlyCommand w => cases hresets
  | commandCutByReset w => rw [acceptInput_cut]; rfl
  | reset => rw [acceptInput_reset]; rfl
  | powerLoss retained =>
    cases retained with
    | true => cases hresets
    | false => rw [acceptInput_lost]; rfl

theorem step_of_retained {s : State} {rest : List HostInput} (hstream : s.stream = .powerLoss true :: rest) :
    step s = .next (silent (consume rest s)) := by
  rw [step_cons s hstream, acceptInput_retained]
  rfl

/-- Settles O9, field by field. -/
theorem resetStateHoldsNoKey : Obligations.ResetStateHoldsNoKey := by
  refine ⟨fun c => ⟨resetOf_keyValid c, ?_, fun i hi => ?_⟩, rfl⟩
  · rw [resetOf_rk, List.length_replicate]
  · rw [resetOf_rk, List.getElem?_replicate_of_lt hi]

/-- Settles O10: both inputs reset, and the reset state is `resetBlock_eq`. -/
theorem resetGivesTheResetState : Obligations.ResetGivesTheResetState := by
  intro s rest
  refine ⟨step_of_resets rfl, fun w => step_of_resets rfl, rfl, rfl, fun i t h => ?_⟩
  obtain ⟨hinst, -, -⟩ := exec_frame h
  exact hinst

/-- Settles O11: the loss is silent or a reset. -/
theorem powerLossRetainsOrResets : Obligations.PowerLossRetainsOrResets := by
  intro s retained rest hstream
  refine ⟨fun h => ?_, fun h => ?_⟩
  · subst h
    exact step_of_retained hstream
  · subst h
    exact step_of_resets rfl hstream

/-- Everything a step that gives a next state has done: wait, reset, run a command, or raise `IllegalCommand`. -/
theorem step_cases {s t : State} (h : step s = .next t) :
    (∃ rest, t = silent (consume rest s)) ∨
    (∃ input rest, s.stream = input :: rest ∧ resets input = true ∧ t = resetBlock (consume rest s)) ∨
    (∃ w i rest, s.stream = .command w :: rest ∧ decode w = .ok i ∧ exec i (consume rest s) = .next t) ∨
    (∃ op rest, t = respond (.err (.illegalCommand op)) (consume rest s)) := by
  cases hstream : s.stream with
  | nil =>
    cases (step_nil s hstream).symm.trans h
    exact .inl ⟨s.stream, rfl⟩
  | cons input rest =>
    by_cases hresets : resets input = true
    · cases (step_of_resets hresets hstream).symm.trans h
      exact .inr (.inl ⟨input, rest, rfl, hresets, rfl⟩)
    cases input with
    | commandCutByReset w => exact absurd rfl hresets
    | reset => exact absurd rfl hresets
    | earlyCommand w => cases (commandPresentedEarlyHasNoMeaning s w rest hstream).symm.trans h
    | powerLoss retained =>
      cases retained with
      | false => exact absurd rfl hresets
      | true =>
        cases (step_of_retained hstream).symm.trans h
        exact .inl ⟨rest, rfl⟩
    | command w =>
      cases hreset : s.wasReset with
      | false => cases (commandBeforeFirstResetHasNoMeaning s w rest hreset hstream).symm.trans h
      | true =>
        obtain ⟨i, hdecode, hstep⟩ | ⟨op, -, hstep⟩ | ⟨why, -, -, hstep⟩ := step_command_cases hreset hstream
        · exact .inr (.inr (.inl ⟨w, i, rest, rfl, hdecode, hstep.symm.trans h⟩))
        · cases hstep.symm.trans h
          exact .inr (.inr (.inr ⟨op, rest, rfl⟩))
        · cases hstep.symm.trans h

/-- The inputs that reset, by name. -/
theorem resets_cases {input : HostInput} (h : resets input = true) :
    (∃ w, input = .commandCutByReset w) ∨ input = .reset ∨ input = .powerLoss false := by
  cases input with
  | command w => cases h
  | earlyCommand w => cases h
  | commandCutByReset w => exact .inl ⟨w, rfl⟩
  | reset => exact .inr (.inl rfl)
  | powerLoss retained =>
    cases retained with
    | true => cases h
    | false => exact .inr (.inr rfl)

/-- Settles O48, by what the step has done. -/
theorem keyStateChangesOnlyByKeyCommandsAndReset : Obligations.KeyStateChangesOnlyByKeyCommandsAndReset := by
  intro s t h
  obtain ⟨rest, rfl⟩ | ⟨input, rest, hstream, hresets, rfl⟩ | ⟨w, i, rest, hstream, hdecode, hexec⟩ |
    ⟨op, rest, rfl⟩ := step_cases h
  · exact ⟨rfl, .inl ⟨rfl, rfl⟩⟩
  · refine ⟨rfl, .inr (.inr ?_)⟩
    obtain ⟨w, rfl⟩ | rfl | rfl := resets_cases hresets
    · exact .inl ⟨w, rest, hstream⟩
    · exact .inr (.inl ⟨rest, hstream⟩)
    · exact .inr (.inr ⟨rest, hstream⟩)
  · obtain ⟨hinst, -, -⟩ := exec_frame hexec
    refine ⟨hinst, ?_⟩
    cases hkey : isKeyCommand i with
    | true => exact .inr (.inl ⟨w, i, rest, hstream, hdecode, hkey⟩)
    | false =>
      obtain ⟨answer, hanswer⟩ := exec_of_not_keyCommand hkey (consume rest s)
      cases hanswer.symm.trans hexec
      exact .inl ⟨rfl, rfl⟩
  · exact ⟨rfl, .inl ⟨rfl, rfl⟩⟩

end Sys2Proof.Machine
end

section
/-! The key-store invariant (spec/10_state.md section 5): each operation on the state keeps it, so each step does. -/

namespace Sys2Proof.Machine

theorem Inv.respond {s : State} (h : Inv s) (r : Response) : Inv (respond r s) :=
  ⟨h.rk_length, h.rk_zero, h.rk_expanded⟩

theorem Inv.silent {s : State} (h : Inv s) : Inv (silent s) := ⟨h.rk_length, h.rk_zero, h.rk_expanded⟩

theorem Inv.consume {s : State} (h : Inv s) (rest : List HostInput) : Inv (consume rest s) :=
  ⟨h.rk_length, h.rk_zero, h.rk_expanded⟩

theorem inv_storeKey_expand (s : State) {key : List Word} (hmin : 2 ≤ key.length) (hmax : key.length ≤ s.inst.nMax) :
    Inv (storeKey (expand s.inst key) s) where
  rk_length := length_expand s.inst key
  rk_zero _ hnoKey := nomatch hnoKey
  rk_expanded _ _ := ⟨key, hmin, hmax, rfl⟩

theorem inv_clearKey (s : State) : Inv (clearKey s) where
  rk_length := List.length_replicate
  rk_zero _ _ := rfl
  rk_expanded _ hkey := nomatch hkey

theorem inv_resetBlock (s : State) : Inv (resetBlock s) where
  rk_length := List.length_replicate
  rk_zero _ _ := rfl
  rk_expanded _ hkey := nomatch hkey

/-- Settles O52: the reset state is what a reset leaves. -/
theorem invariantHoldsAtReset : Obligations.InvariantHoldsAtReset := fun c => inv_resetBlock (State.resetOf c)

theorem exec_keeps_inv {i : Instr} {s t : State} (hinv : Inv s) (h : exec i s = .next t) : Inv t := by
  obtain ⟨answer, u, hu, hcases⟩ := exec_answers i s
  cases hu.symm.trans h
  obtain rfl | ⟨-, ⟨key, hmin, hmax, rfl⟩ | rfl⟩ := hcases
  · exact hinv.respond answer
  · exact (inv_storeKey_expand s hmin hmax).respond answer
  · exact (inv_clearKey s).respond answer

/-- Settles O53, by what the step has done. -/
theorem everyStepKeepsTheInvariant : Obligations.EveryStepKeepsTheInvariant := by
  intro s t hinv h
  obtain ⟨rest, rfl⟩ | ⟨input, rest, -, -, rfl⟩ | ⟨w, i, rest, -, -, hexec⟩ | ⟨op, rest, rfl⟩ := step_cases h
  · exact (hinv.consume rest).silent
  · exact inv_resetBlock _
  · exact exec_keeps_inv (hinv.consume rest) hexec
  · exact (hinv.consume rest).respond _

end Sys2Proof.Machine
end

section
/-! Runs of many steps (spec/70_reset_and_hazards.md sections 3 and 4, spec/10_state.md section 1). -/

namespace Sys2Proof.Machine

theorem run_zero (s : State) : Host.Core.run Sys2Proof.core 0 s = .next s := rfl

theorem run_succ {s t : State} (h : step s = .next t) (n : Nat) :
    Host.Core.run Sys2Proof.core (n + 1) s = Host.Core.run Sys2Proof.core n t := by
  simp only [Host.Core.run, show Sys2Proof.core.step s = .next t from h]

/-- A command word that the host may present, on a block ready for it, is answered, and its host still obeys. -/
theorem step_command_of_answerable {s : State} {w : CommandWord} {rest : List HostInput}
    (hreset : s.wasReset = true) (hstream : s.stream = .command w :: rest) (hanswerable : answerable w = true) :
    ∃ t, step s = .next t ∧ t.wasReset = true ∧ t.stream = rest := by
  obtain ⟨i, -, hstep⟩ | ⟨op, -, hstep⟩ | ⟨why, hdecode, hwhy, -⟩ := step_command_cases hreset hstream
  · obtain ⟨answer, u, hu, -⟩ := exec_answers i (consume rest s)
    obtain ⟨-, hwasReset, hrest⟩ := exec_frame hu
    exact ⟨_, hstep.trans hu, hwasReset.trans hreset, hrest⟩
  · exact ⟨_, hstep, hreset, rfl⟩
  · cases why with
    | reserved op => exact absurd rfl (hwhy op)
    | noOpcode => simp [answerable, hdecode] at hanswerable
    | truncated => simp [answerable, hdecode] at hanswerable
    | trailingBits => simp [answerable, hdecode] at hanswerable

/-- A host that obeys now can be answered now, and obeys afterwards; by the next input. -/
theorem step_of_hostObeys {s : State} (h : HostObeys s) : ∃ t, step s = .next t ∧ HostObeys t := by
  unfold HostObeys at h
  cases hstream : s.stream with
  | nil => exact ⟨silent s, step_nil s hstream, h⟩
  | cons input rest =>
    rw [hstream] at h
    cases input with
    | command w =>
      simp only [obeys, Bool.and_eq_true] at h
      obtain ⟨hreset, hanswerable, hrest⟩ := h
      obtain ⟨t, hstep, hreset', hstream'⟩ := step_command_of_answerable hreset hstream hanswerable
      rw [hreset] at hrest
      exact ⟨t, hstep, by rw [HostObeys, hreset', hstream', hrest]⟩
    | earlyCommand w => cases h
    | commandCutByReset w =>
      simp only [obeys, Bool.and_eq_true] at h
      exact ⟨_, step_of_resets rfl hstream, h.2⟩
    | reset => exact ⟨_, step_of_resets rfl hstream, h⟩
    | powerLoss retained =>
      cases retained with
      | true =>
        rw [obeys, Bool.not_true, Bool.or_false] at h
        exact ⟨_, step_of_retained hstream, h⟩
      | false =>
        rw [obeys, Bool.not_false, Bool.or_true] at h
        exact ⟨_, step_of_resets rfl hstream, h⟩

/-- Settles O54, by induction on the number of steps. -/
theorem anObedientHostNeverStopsTheBlock : Obligations.AnObedientHostNeverStopsTheBlock := by
  intro n
  induction n with
  | zero => exact fun s hobeys hinv => ⟨s, run_zero s, hobeys, hinv⟩
  | succ n ih =>
    intro s hobeys hinv
    obtain ⟨t, hstep, hobeys'⟩ := step_of_hostObeys hobeys
    rw [run_succ hstep]
    exact ih t hobeys' (everyStepKeepsTheInvariant s t hinv hstep)

/-- Settles O55, by induction on the commands: each is decoded from its canonical word and changes no more than the
response. -/
theorem theKeyLivesUntilTheNextKeyCommand : Obligations.TheKeyLivesUntilTheNextKeyCommand := by
  intro commands
  induction commands with
  | nil => exact fun s rest _ _ hstream => ⟨s, run_zero s, rfl, rfl, rfl, hstream⟩
  | cons i commands ih =>
    intro s rest hreset hcommands hstream
    obtain ⟨⟨hwf, hkey⟩, hlater⟩ := List.forall_mem_cons.mp hcommands
    have hstep := stepRunsTheDecodedCommand s (encode i) _ i hreset hstream (decodeOfEncodeIsTheCommand i hwf)
    obtain ⟨answer, hanswer⟩ := exec_of_not_keyCommand hkey (consume (commands.map (.command ∘ encode) ++ rest) s)
    rw [List.length_cons, run_succ (hstep.trans hanswer)]
    exact ih _ rest hreset hlater rfl

end Sys2Proof.Machine
end

section
/-! What a command that ends in `finish` was given, read off the response it delivered. -/

namespace Sys2Proof.Machine

section
variable {r : Except BlockError Result} {s t : State}

theorem eq_ok_of_finish {res : Result} (h : finish r s = .next t) (ht : t.response = some (.ok res)) : r = .ok res := by
  cases r with
  | ok res' => cases h; cases ht; rfl
  | error e => cases h; cases ht

theorem eq_error_of_finish {e : BlockError} (h : finish r s = .next t) (ht : t.response = some (.err e)) :
    r = .error e := by
  cases r with
  | ok res => cases h; cases ht
  | error e' => cases h; cases ht; rfl

end

/-- A mapped result is OK when what it was mapped from is. -/
theorem eq_ok_of_map {α β : Type} {x : Except BlockError α} {f : α → β} {b : β} (h : x.map f = .ok b) :
    ∃ a, x = .ok a ∧ f a = b := by
  cases x with
  | ok a => cases h; exact ⟨a, rfl, rfl⟩
  | error e => cases h

theorem eq_error_of_map {α β : Type} {x : Except BlockError α} {f : α → β} {e : BlockError}
    (h : x.map f = .error e) : x = .error e := by
  cases x with
  | ok a => cases h
  | error e' => cases h; rfl

section
variable {r : BitVec 20} {y : BitVec 14} {m : BitVec 4} {d : BitVec 5} {q : BitVec 10} {s : State}

theorem packChecked_of_exec_pack {v : Block}
    (h : exec (.pack r y m d q) s = .next { s with response := some (.ok (.data v)) }) :
    packChecked ⟨r, y, m, d, q⟩ = .ok v := by
  rw [exec_pack] at h
  obtain ⟨v', hpacked, hv⟩ := eq_ok_of_map (eq_ok_of_finish h rfl)
  cases hv
  exact hpacked

theorem packChecked_of_exec_pack_error {e : BlockError}
    (h : exec (.pack r y m d q) s = .next { s with response := some (.err e) }) :
    packChecked ⟨r, y, m, d, q⟩ = .error e := by
  rw [exec_pack] at h
  exact eq_error_of_map (eq_error_of_finish h rfl)

/-- What ENCODE answers is PACK's word after the cipher stage. -/
theorem packChecked_of_exec_encode {c : Block}
    (h : exec (.encode r y m d q) s = .next { s with response := some (.ok (.data c)) }) :
    ∃ p, packChecked ⟨r, y, m, d, q⟩ = .ok p ∧ encryptIfKeyed s p = c := by
  rw [exec_encode] at h
  obtain ⟨p, hpacked, hp⟩ := eq_ok_of_map (eq_ok_of_finish h rfl)
  cases hp
  exact ⟨p, hpacked, rfl⟩

end

theorem unpackChecked_of_exec_unpack {v : Block} {s : State} {f : Fields} {check : CheckCode}
    (h : exec (.unpack v) s = .next { s with response := some (.ok (.fields f check)) }) :
    unpackChecked v = .ok (.fields f check) :=
  eq_ok_of_finish h rfl

theorem exec_unpack_of_unpacked {v : Block} {res : Result} (h : unpackChecked v = .ok res) (s : State) :
    exec (.unpack v) s = .next { s with response := some (.ok res) } := by
  rw [exec_unpack, h]
  rfl

end Sys2Proof.Machine
end

section
/-! The packed word as what PACK makes and UNPACK reads (spec/30_encoding.md section 3, spec/41_bitfield.md sections 3
and 4). -/

namespace Sys2Proof.Machine

/-- The word that PACK makes of fields. -/
def packedFields (f : Fields) : Block :=
  packedWord f.region (daysFromEpoch f.year.toNat f.month.toNat f.day.toNat) f.seq

section
variable {f : Fields} (h : legalFields f = true)
include h

theorem daysFromEpoch_lt_of_legal : daysFromEpoch f.year.toNat f.month.toNat f.day.toNat < 3652425 := by
  obtain ⟨-, -, hdate⟩ := (legalFields_iff f).mp h
  exact daysFromEpoch_lt hdate

theorem daysFromEpoch_fits_of_legal : daysFromEpoch f.year.toNat f.month.toNat f.day.toNat < 2 ^ 22 :=
  (daysFromEpoch_lt_of_legal h).trans (by decide)

theorem regionOf_packedFields : regionOf (packedFields f) = f.region :=
  regionOf_packedWord _ _ (daysFromEpoch_fits_of_legal h)

theorem offsetOf_packedFields :
    (offsetOf (packedFields f)).toNat = daysFromEpoch f.year.toNat f.month.toNat f.day.toNat :=
  offsetOf_packedWord _ _ (daysFromEpoch_fits_of_legal h)

theorem seqOf_packedFields : seqOf (packedFields f) = f.seq := seqOf_packedWord _ _ (daysFromEpoch_fits_of_legal h)

theorem versionOf_packedFields : versionOf (packedFields f) = 1 :=
  versionOf_packedWord _ _ (daysFromEpoch_fits_of_legal h)

theorem reservedOf_packedFields : reservedOf (packedFields f) = 0 :=
  reservedOf_packedWord _ _ (daysFromEpoch_fits_of_legal h)

/-- The largest word is that of the largest fields. -/
theorem packedFields_le : (packedFields f).toNat ≤ 0x00F423FDEED23E71 := by
  obtain ⟨hregion, hseq, -⟩ := (legalFields_iff f).mp h
  have hoffset := daysFromEpoch_lt_of_legal h
  rw [packedFields, packedWord_toNat _ _ (daysFromEpoch_fits_of_legal h)]
  omega

theorem legalWord_packedFields : legalWord (packedFields f) = true := by
  obtain ⟨hregion, hseq, -⟩ := (legalFields_iff f).mp h
  rw [legalWord_iff, versionOf_packedFields h, reservedOf_packedFields h, offsetOf_packedFields h,
    regionOf_packedFields h, seqOf_packedFields h]
  exact ⟨rfl, rfl, Nat.le_of_lt_succ (daysFromEpoch_lt_of_legal h), hregion, hseq⟩

/-- UNPACK reads the fields back from the word that PACK makes of them, and computes their check code. -/
theorem unpackChecked_packedFields : unpackChecked (packedFields f) = .ok (.fields f
    (checkCode (digits f.region.toNat f.year.toNat f.month.toNat f.day.toNat f.seq.toNat))) := by
  obtain ⟨-, -, hdate⟩ := (legalFields_iff f).mp h
  obtain ⟨-, hmonth, hmonth', hday, hday'⟩ := (validDate_iff _ _ _).mp hdate
  rw [unpackChecked_legal (legalWord_packedFields h), offsetOf_packedFields h,
    dateFromDays_daysFromEpoch hmonth hmonth' hday hday', unpackedResult, regionOf_packedFields h,
    seqOf_packedFields h]
  simp only [BitVec.ofNat_toNat, BitVec.setWidth_eq]

end

/-- The fields that a legal word holds. -/
def fieldsOf (v : Block) : Fields :=
  let date := dateFromDays (offsetOf v).toNat
  ⟨regionOf v, BitVec.ofNat 14 date.year, BitVec.ofNat 4 date.month, BitVec.ofNat 5 date.day, seqOf v⟩

/-- UNPACK's checks pass exactly on legal words. -/
theorem unpackChecked_eq_ok {v : Block} {res : Result} : unpackChecked v = .ok res ↔
    legalWord v = true ∧ res = unpackedResult v (dateFromDays (offsetOf v).toNat) := by
  cases h : legalWord v with
  | false => obtain ⟨e, he⟩ := unpackChecked_illegal h; simp [he]
  | true => rw [unpackChecked_legal h]; simp [eq_comm]

section
variable {v : Block} (h : legalWord v = true)
include h

/-- The date of a legal word's offset is valid, and each of its parts fits its result field. -/
theorem date_of_legalWord : validDate (dateFromDays (offsetOf v).toNat).year (dateFromDays (offsetOf v).toNat).month
      (dateFromDays (offsetOf v).toNat).day = true ∧
    (fieldsOf v).year.toNat = (dateFromDays (offsetOf v).toNat).year ∧
    (fieldsOf v).month.toNat = (dateFromDays (offsetOf v).toNat).month ∧
    (fieldsOf v).day.toNat = (dateFromDays (offsetOf v).toNat).day := by
  obtain ⟨-, -, hoffset, -, -⟩ := (legalWord_iff v).mp h
  obtain ⟨hmonth, hmonth', hday, hday', -⟩ := dateFromDays_spec (offsetOf v).toNat
  have hyear := year_gt_iff (offsetOf v).toNat
  have hshort := hday'.trans (monthLen_le hmonth hmonth')
  refine ⟨(validDate_iff _ _ _).mpr ⟨by omega, hmonth, hmonth', hday, hday'⟩, ?_, ?_, ?_⟩
  · exact Nat.mod_eq_of_lt (by omega)
  · exact Nat.mod_eq_of_lt (by omega)
  · exact Nat.mod_eq_of_lt (by omega)

theorem legalFields_fieldsOf : legalFields (fieldsOf v) = true := by
  obtain ⟨-, -, -, hregion, hseq⟩ := (legalWord_iff v).mp h
  obtain ⟨hdate, hyear, hmonth, hday⟩ := date_of_legalWord h
  rw [legalFields_iff, hyear, hmonth, hday]
  exact ⟨hregion, hseq, hdate⟩

/-- A legal word is the one that PACK makes of its fields. -/
theorem packedFields_fieldsOf : packedFields (fieldsOf v) = v := by
  obtain ⟨hversion, hreserved, -, -, -⟩ := (legalWord_iff v).mp h
  obtain ⟨-, hyear, hmonth, hday⟩ := date_of_legalWord h
  obtain ⟨-, -, -, -, hoffset⟩ := dateFromDays_spec (offsetOf v).toNat
  rw [packedFields, hyear, hmonth, hday, hoffset]
  exact packedWord_of_fields hreserved hversion

end

/-- Settles O34: the word is `packedFields` of the operands. -/
theorem packedWordHoldsItsFields : Obligations.PackedWordHoldsItsFields := by
  intro r y m d q s v h
  obtain ⟨hlegal, rfl⟩ := packChecked_eq_ok.mp (packChecked_of_exec_pack h)
  exact ⟨reservedOf_packedFields hlegal, regionOf_packedFields hlegal, offsetOf_packedFields hlegal,
    seqOf_packedFields hlegal, versionOf_packedFields hlegal, packedFields_le hlegal⟩

/-- Settles O37: UNPACK's checks pass exactly on the words that R147 lists. -/
theorem unpackAcceptsExactlyTheLegalWords : Obligations.UnpackAcceptsExactlyTheLegalWords := by
  intro v s
  refine Iff.trans ⟨?_, ?_⟩ (legalWord_iff v)
  · rintro ⟨f, check, h⟩
    exact (unpackChecked_eq_ok.mp (unpackChecked_of_exec_unpack h)).1
  · exact fun hlegal => ⟨_, _, exec_unpack_of_unpacked (unpackChecked_legal hlegal) s⟩

/-- Settles O38: `packedFields` and `fieldsOf` undo each other on what is legal. -/
theorem packAndUnpackRoundTrip : Obligations.PackAndUnpackRoundTrip := by
  refine ⟨fun r y m d q s t v h => ?_, fun v s t f check h => ?_⟩
  · obtain ⟨hlegal, rfl⟩ := packChecked_eq_ok.mp (packChecked_of_exec_pack h)
    exact exec_unpack_of_unpacked (unpackChecked_packedFields hlegal) t
  · obtain ⟨hlegal, hfields⟩ := unpackChecked_eq_ok.mp (unpackChecked_of_exec_unpack h)
    cases hfields
    exact exec_pack_of_packed
      (packChecked_eq_ok.mpr ⟨legalFields_fieldsOf hlegal, (packedFields_fieldsOf hlegal).symm⟩) t

/-- Settles O35: UNPACK reads the operands back from the word, so they are determined by it. -/
theorem packIsInjective : Obligations.PackIsInjective := by
  refine ⟨fun r y m d q s => ⟨fun hlegal => ?_, fun ⟨v, h⟩ => ?_⟩, fun r r' y y' m m' d d' q q' s t v h h' => ?_⟩
  · exact ⟨_, exec_pack_of_packed (packChecked_legal hlegal) s⟩
  · exact (packChecked_eq_ok.mp (packChecked_of_exec_pack h)).1
  · have hunpack := packAndUnpackRoundTrip.1 r y m d q s t v h
    have hunpack' := packAndUnpackRoundTrip.1 r' y' m' d' q' t t v h'
    cases hunpack.symm.trans hunpack'
    exact ⟨rfl, rfl, rfl, rfl, rfl⟩

end Sys2Proof.Machine
end

section
/-! The cipher commands and the composed commands (spec/40_cipher.md section 3, spec/42_composer.md). -/

namespace Sys2Proof.Machine

/-- Settles O26: with a key both commands answer, and `decrypt` and `encrypt` undo each other. -/
theorem encAndDecRoundTrip : Obligations.EncAndDecRoundTrip := by
  intro s t x hkey hinst hrk hkeyValid
  obtain ⟨hdecrypt, hencrypt⟩ := decryptInvertsEncrypt s.inst s.rk x
  refine ⟨⟨_, ((encAndDecAnswer x s).1 hkey).1, ?_⟩, ⟨_, ((encAndDecAnswer x s).1 hkey).2, ?_⟩⟩
  · rw [((encAndDecAnswer _ t).1 (hkeyValid.trans hkey)).2, hinst, hrk, hdecrypt]
  · rw [((encAndDecAnswer _ t).1 (hkeyValid.trans hkey)).1, hinst, hrk, hencrypt]

/-- The two cipher stages undo each other, with a key and without one. -/
theorem decryptIfKeyed_encryptIfKeyed {s t : State} (hinst : t.inst = s.inst) (hrk : t.rk = s.rk)
    (hkeyValid : t.keyValid = s.keyValid) (p : Block) : decryptIfKeyed t (encryptIfKeyed s p) = p := by
  cases hkey : s.keyValid with
  | false => rw [encryptIfKeyed_of_noKey hkey, decryptIfKeyed_of_noKey (hkeyValid.trans hkey)]
  | true =>
    rw [encryptIfKeyed_of_key hkey, decryptIfKeyed_of_key (hkeyValid.trans hkey), hinst, hrk]
    exact (decryptInvertsEncrypt s.inst s.rk p).1

/-- Settles O41: the word passes UNPACK's checks. -/
theorem decodeAnswersTheFields : Obligations.DecodeAnswersTheFields := by
  intro data w s date hkeyed hplain hversion hreserved hoffset hregion hseq hdate
  have hw : decryptIfKeyed s data = w := by
    cases hkey : s.keyValid with
    | false => rw [decryptIfKeyed_of_noKey hkey, hplain hkey]
    | true => rw [decryptIfKeyed_of_key hkey, hkeyed hkey]
  have hlegal : legalWord w = true := (legalWord_iff w).mpr ⟨hversion, hreserved, hoffset, hregion, hseq⟩
  rw [exec_decode_eq_exec_unpack, hw, hdate]
  exact exec_unpack_of_unpacked (unpackChecked_legal hlegal) s

/-- Settles O42: ENCODE and PACK share PACK's checks, DECODE and UNPACK the rest, and the stage between is ENC's or
DEC's with a key and nothing without one. -/
theorem composedCommandsEqualTheirTwoCommands : Obligations.ComposedCommandsEqualTheirTwoCommands := by
  intro r y m d q x s
  refine ⟨fun hkey => ⟨fun p h => ?_, fun e h => ?_, decrypt s.inst s.rk x, ((encAndDecAnswer x s).1 hkey).2, ?_⟩,
    fun hkey => ⟨?_, ?_⟩⟩
  · rw [exec_encode_of_packed (packChecked_of_exec_pack h), ((encAndDecAnswer p s).1 hkey).1,
      encryptIfKeyed_of_key hkey]
    rfl
  · exact exec_encode_of_error (packChecked_of_exec_pack_error h) s
  · rw [exec_decode_eq_exec_unpack, decryptIfKeyed_of_key hkey]
  · simp only [exec_encode, exec_pack, encryptIfKeyed_of_noKey hkey]
  · rw [exec_decode_eq_exec_unpack, decryptIfKeyed_of_noKey hkey]

/-- Settles O43: the cipher stages cancel, and UNPACK reads PACK's word. -/
theorem encodeThenDecodeReturnsTheNumber : Obligations.EncodeThenDecodeReturnsTheNumber := by
  intro r y m d q s t c hinst hrk hkeyValid h
  obtain ⟨p, hpacked, rfl⟩ := packChecked_of_exec_encode h
  rw [exec_decode_eq_exec_unpack, decryptIfKeyed_encryptIfKeyed hinst hrk hkeyValid]
  exact packAndUnpackRoundTrip.1 r y m d q s t p (exec_pack_of_packed hpacked s)

/-- An error of a check or of the checks after it is of `LAYER` 0 when each of theirs is. -/
theorem layer_check {failed : Prop} [Decidable failed] {α : Type} {e : BlockError} {later : Except BlockError α}
    (hfirst : e.kind.layer = 0) (hlater : ∀ e', later = .error e' → e'.kind.layer = 0) (e' : BlockError)
    (h : (if failed then .error e else later) = .error e') : e'.kind.layer = 0 := by
  split at h
  · cases h; exact hfirst
  · exact hlater e' h

/-- PACK's checks raise errors of the codec layer alone. -/
theorem layer_of_packChecked_error {f : Fields} : ∀ {e : BlockError}, packChecked f = .error e → e.kind.layer = 0 :=
  layer_check rfl (layer_check rfl (layer_check rfl (layer_check rfl (layer_check rfl (layer_check rfl
    fun _ h => by cases h))))) _

/-- UNPACK's checks raise errors of the codec layer alone. -/
theorem layer_of_unpackChecked_error {v : Block} : ∀ {e : BlockError}, unpackChecked v = .error e → e.kind.layer = 0 :=
  layer_check rfl (layer_check rfl (layer_check rfl (layer_check rfl (layer_check rfl
    fun _ h => by cases h)))) _

/-- Settles O44: the cipher stage raises nothing, and the two kinds named are of `LAYER` 1. -/
theorem composedCommandsReportCodecErrorsOnly : Obligations.ComposedCommandsReportCodecErrorsOnly := by
  intro i s t e hi h he
  have hlayer : e.kind.layer = 0 := by
    obtain ⟨r, y, m, d, q, rfl⟩ | ⟨x, rfl⟩ := hi
    · rw [exec_encode] at h
      exact layer_of_packChecked_error (eq_error_of_map (eq_error_of_finish h he))
    · rw [exec_decode] at h
      exact layer_of_unpackChecked_error (eq_error_of_finish h he)
  refine ⟨hlayer, fun hkind => ?_, fun hkind => ?_⟩
  · rw [hkind] at hlayer; cases hlayer
  · rw [hkind] at hlayer; cases hlayer

end Sys2Proof.Machine
end

section
/-! Noninterference of the round keys (spec/10_state.md sections 1 and 5). -/

namespace Sys2Proof.Machine

/-- Both outcomes are next states with one response and one `KEY_VALID`. -/
def SameAnswer (o o' : StepOutcome) : Prop :=
  ∃ t t', o = .next t ∧ o' = .next t' ∧ t.response = t'.response ∧ t.keyValid = t'.keyValid

theorem finish_sameAnswer (r : Except BlockError Result) {s s' : State} (h : s.keyValid = s'.keyValid) :
    SameAnswer (finish r s) (finish r s') := by
  cases r with
  | ok res => exact ⟨_, _, finish_ok res s, finish_ok res s', rfl, h⟩
  | error e => exact ⟨_, _, finish_error e s, finish_error e s', rfl, h⟩

theorem loadKey_sameAnswer (accepted : Bool) (count : Nat) (key : List Word) {s s' : State}
    (h : s.keyValid = s'.keyValid) : SameAnswer (loadKey accepted count key s) (loadKey accepted count key s') := by
  cases accepted with
  | false => exact ⟨_, _, rfl, rfl, rfl, h⟩
  | true => exact ⟨_, _, rfl, rfl, rfl, rfl⟩

/-- Settles O51, by cases on the command: what it answers is computed from the other fields. -/
theorem roundKeysReachOnlyTheCipherCommands : Obligations.RoundKeysReachOnlyTheCipherCommands := by
  intro i s other hread
  cases i with
  | stat => exact finish_sameAnswer (.ok (.data (statusWord s.inst s.keyValid))) rfl
  | keyw key => exact loadKey_sameAnswer (decide (2 ≤ key.length ∧ key.length ≤ s.inst.nMax)) key.length key rfl
  | keyb kb =>
    exact loadKey_sameAnswer (decide (kb.length % 4 = 0 ∧ 2 ≤ kb.length / 4 ∧ kb.length / 4 ≤ s.inst.nMax)) kb.length
      (wordsOfBytes kb) rfl
  | keyclr => exact ⟨_, _, exec_keyclr s, exec_keyclr _, rfl, rfl⟩
  | pack r y m d q => exact finish_sameAnswer ((packChecked ⟨r, y, m, d, q⟩).map .data) rfl
  | unpack data => exact finish_sameAnswer (unpackChecked data) rfl
  | enc data => cases hread
  | dec data => cases hread
  | encode r y m d q => cases hread
  | decode data => cases hread

/-- Settles O50: without a key ENC and DEC raise, and ENCODE and DECODE are PACK and UNPACK. -/
theorem roundKeysAreUnreadWithoutAKey : Obligations.RoundKeysAreUnreadWithoutAKey := by
  intro i s other hkey
  cases hread : mayReadRoundKeys i with
  | false => exact roundKeysReachOnlyTheCipherCommands i s other hread
  | true =>
    have hkey' : ({ s with rk := other } : State).keyValid = false := hkey
    cases i with
    | enc data => exact ⟨_, _, ((encAndDecAnswer data s).2 hkey).1, ((encAndDecAnswer data _).2 hkey').1, rfl, rfl⟩
    | dec data => exact ⟨_, _, ((encAndDecAnswer data s).2 hkey).2, ((encAndDecAnswer data _).2 hkey').2, rfl, rfl⟩
    | encode r y m d q =>
      rw [((composedCommandsEqualTheirTwoCommands r y m d q 0 _).2 hkey).1,
        ((composedCommandsEqualTheirTwoCommands r y m d q 0 _).2 hkey').1]
      exact roundKeysReachOnlyTheCipherCommands (.pack r y m d q) s other rfl
    | decode data =>
      rw [exec_decode_eq_exec_unpack, decryptIfKeyed_of_noKey hkey, exec_decode_eq_exec_unpack,
        decryptIfKeyed_of_noKey hkey']
      exact roundKeysReachOnlyTheCipherCommands (.unpack data) s other rfl
    | stat => cases hread
    | keyw key => cases hread
    | keyb kb => cases hread
    | keyclr => cases hread
    | pack r y m d q => cases hread
    | unpack data => cases hread

end Sys2Proof.Machine
end

section
/-! Key bytes and rotations (spec/30_encoding.md R42, spec/00_scope.md R11). -/

namespace Sys2Proof.Machine

/-- The four bytes of a key word, least significant first (R42). -/
def bytesOfWord (k : Word) : List Byte :=
  [k.extractLsb' 0 8, k.extractLsb' 8 8, k.extractLsb' 16 8, k.extractLsb' 24 8]

/-- A word is formed again from its own bytes. -/
theorem wordOfBytes_extractLsb' (k : Word) :
    wordOfBytes (k.extractLsb' 0 8) (k.extractLsb' 8 8) (k.extractLsb' 16 8) (k.extractLsb' 24 8) = k := by
  apply BitVec.eq_of_toNat_eq
  have := k.isLt
  simp only [wordOfBytes_toNat, BitVec.extractLsb'_toNat, Nat.shiftRight_eq_div_pow]
  omega

theorem wordsOfBytes_flatMap_bytesOfWord (key : List Word) : wordsOfBytes (key.flatMap bytesOfWord) = key := by
  induction key with
  | nil => rfl
  | cons k key ih =>
    rw [List.flatMap_cons, bytesOfWord]
    exact congrArg₂ List.cons (wordOfBytes_extractLsb' k) ih

theorem length_flatMap_bytesOfWord (key : List Word) : (key.flatMap bytesOfWord).length = 4 * key.length := by
  induction key with
  | nil => rfl
  | cons k key ih =>
    rw [List.flatMap_cons, List.length_append, ih, List.length_cons, Nat.mul_succ, Nat.add_comm]
    rfl

/-- Settles O17: the bytes form the words again, and their count passes KEYB's check when that of the words passes
KEYW's. -/
theorem keybOnTheBytesOfAKeyEqualsKeyw : Obligations.KeybOnTheBytesOfAKeyEqualsKeyw := by
  intro key s hmin hmax
  have hlength := length_flatMap_bytesOfWord key
  have hkeyb := loadKey_of_accepted (decide_eq_true (p := (key.flatMap bytesOfWord).length % 4 = 0 ∧
      2 ≤ (key.flatMap bytesOfWord).length / 4 ∧ (key.flatMap bytesOfWord).length / 4 ≤ s.inst.nMax) (by omega))
    (key.flatMap bytesOfWord).length (wordsOfBytes (key.flatMap bytesOfWord)) s
  rw [← exec_keyb, wordsOfBytes_flatMap_bytesOfWord] at hkeyb
  exact hkeyb.trans ((keywLoadsTheExpandedKeyOrRejects key s).1 ⟨hmin, hmax⟩).symm

/-- R11: a left rotation by `r` moves bit `i` to bit `i + r`, modulo 32. -/
theorem getLsbD_rol32 (x : Word) {r i : Nat} (hr : r ≤ 31) (hi : i < 32) :
    (rol32 x r).getLsbD i = x.getLsbD ((i + 32 - r) % 32) := by
  rw [rol32_eq_rotateLeft _ hr, BitVec.getLsbD_rotateLeft, Nat.mod_eq_of_lt (by omega : r < 32)]
  by_cases h : i < r
  · simp [h, show (i + 32 - r) % 32 = 32 - r + i by omega]
  · simp [h, hi, show (i + 32 - r) % 32 = i - r by omega]

/-- R11: a right rotation by `r` moves bit `i + r`, modulo 32, to bit `i`. -/
theorem getLsbD_ror32 (x : Word) {r i : Nat} (hr : r ≤ 31) (hi : i < 32) :
    (ror32 x r).getLsbD i = x.getLsbD ((i + r) % 32) := by
  rw [ror32_eq_rotateRight _ hr, BitVec.getLsbD_rotateRight, Nat.mod_eq_of_lt (by omega : r < 32)]
  by_cases h : i < 32 - r
  · simp [h, show (i + r) % 32 = r + i by omega]
  · simp [h, hi, show (i + r) % 32 = i - (32 - r) by omega]

/-- Settles O21; a right rotation is a left one by the rest of the 32 bits, bit by bit. -/
theorem rotationsUndoEachOther : Obligations.RotationsUndoEachOther := by
  intro x r hr
  refine ⟨fun i hi => ⟨getLsbD_rol32 x hr hi, getLsbD_ror32 x hr hi⟩, ror32_rol32 x hr, rol32_ror32 x hr, ?_⟩
  apply BitVec.eq_of_getLsbD_eq
  intro i hi
  rw [getLsbD_ror32 x hr hi, getLsbD_rol32 x (by omega) hi, show (i + 32 - (32 - r) % 32) % 32 = (i + r) % 32 by omega]

end Sys2Proof.Machine
end

section
/-! The day offset as a count of days and as an order of the dates (spec/41_bitfield.md R130 to R133). -/

namespace Sys2Proof.Machine

/-- The years before a year fill the days before it. -/
theorem yearStart_eq_sum (y : Nat) : yearStart y = ((List.range y).map yearLen).sum := by
  induction y with
  | zero => rfl
  | succ y ih => rw [yearStart_succ, ih, List.range_succ, List.map_append, List.sum_append]; rfl

/-- The months before a month fill the days of the year before it. -/
theorem daysBeforeMonth_eq_sum (y m : Nat) :
    daysBeforeMonth y (m + 1) = ((List.range m).map fun k => monthLen y (k + 1)).sum := by
  induction m with
  | zero => rfl
  | succ m ih =>
    rw [daysBeforeMonth_succ y (Nat.le_add_left 1 m), ih, List.range_succ, List.map_append, List.sum_append]
    rfl

/-- A length that depends on the leap rule alone, with the rule written out. -/
theorem ite_isLeap (y long short : Nat) : (if isLeap y then long else short) =
    if y % 4 = 0 ∧ (y % 100 ≠ 0 ∨ y % 400 = 0) then long else short :=
  if_congr (isLeap_iff y) rfl rfl

/-- Settles O27: the lengths are the table's, and years and months tile the days before a date. -/
theorem dayOffsetCountsTheDays : Obligations.DayOffsetCountsTheDays := by
  refine ⟨fun y => ⟨isLeap_iff y, ite_isLeap y 366 365, ite_isLeap y 29 28, rfl, rfl, rfl, rfl, rfl, rfl, rfl, rfl, rfl,
    rfl, rfl⟩, fun y m d hmonth _ => ?_⟩
  rw [daysFromEpoch_eq, yearStart_eq_sum, ← daysBeforeMonth_eq_sum, Nat.sub_add_cancel hmonth]

/-- A date of an earlier year, month or day has the smaller day offset. -/
theorem daysFromEpoch_lt_daysFromEpoch {y m d y' m' d' : Nat} (h : validDate y m d = true)
    (h' : validDate y' m' d' = true) (hearlier : y < y' ∨ (y = y' ∧ (m < m' ∨ (m = m' ∧ d < d')))) :
    daysFromEpoch y m d < daysFromEpoch y' m' d' := by
  obtain ⟨-, hmonth, hmonth', hday, hday'⟩ := (validDate_iff _ _ _).mp h
  obtain ⟨-, hm, hm', hd, hd'⟩ := (validDate_iff _ _ _).mp h'
  obtain hyear | ⟨rfl, hlater | ⟨rfl, hlater⟩⟩ := hearlier
  · have hin := daysFromEpoch_in_year hmonth hmonth' hday hday'
    have hin' := daysFromEpoch_in_year hm hm' hd hd'
    have hyears := yearStart_mono hyear
    omega
  · have hmonths := daysBeforeMonth_mono y hmonth hlater
    rw [daysFromEpoch_eq, daysFromEpoch_eq]
    omega
  · rw [daysFromEpoch_eq, daysFromEpoch_eq]
    omega

/-- Settles O28: every offset in the range is that of its own date. -/
theorem dayOffsetOrdersTheValidDates : Obligations.DayOffsetOrdersTheValidDates := by
  refine ⟨fun y m d y' m' d' => daysFromEpoch_lt_daysFromEpoch, fun y m d h => Nat.le_of_lt_succ (daysFromEpoch_lt h),
    fun off hoff => ?_⟩
  obtain ⟨hmonth, hmonth', hday, hday', hdays⟩ := dateFromDays_spec off
  have hyear := year_gt_iff off
  exact ⟨_, _, _, (validDate_iff _ _ _).mpr ⟨by omega, hmonth, hmonth', hday, hday'⟩, hdays⟩

end Sys2Proof.Machine
end

section
/-! Decimal digits and the check code (spec/41_bitfield.md section 2). -/

namespace Sys2Proof.Machine

/-- The weighted sum as a sum over the positions. -/
theorem weightedSum_eq_sum (ds ws : List Nat) (h : ds.length = ws.length) :
    weightedSum ds ws = ((List.range ws.length).map fun p => ds.getD p 0 * ws.getD p 0).sum := by
  induction ds generalizing ws with
  | nil =>
    cases ws with
    | nil => rfl
    | cons w ws => cases h
  | cons d ds ih =>
    cases ws with
    | nil => cases h
    | cons w ws =>
      rw [weightedSum, ih ws (Nat.succ.inj h), List.length_cons, List.range_succ_eq_map, List.map_cons,
        List.sum_cons, List.map_map]
      rfl

/-- Settles O30: the sum position by position; the two table facts are finite. -/
theorem checkCodeIsTheTableOfTheWeightedSum : Obligations.CheckCodeIsTheTableOfTheWeightedSum := by
  refine ⟨fun dig hlength => ?_, by decide, by decide, by decide⟩
  rw [checkCode, weightedSum_eq_sum dig weights hlength]
  rfl

/-- A digit put in place of another changes the weighted sum by its weight times the difference. -/
theorem weightedSum_set (ds ws : List Nat) {p : Nat} (d : Nat) (h : p < ds.length) :
    weightedSum (ds.set p d) ws + ds.getD p 0 * ws.getD p 0 = weightedSum ds ws + d * ws.getD p 0 := by
  induction ds generalizing ws p with
  | nil => cases h
  | cons x ds ih =>
    cases ws with
    | nil => cases p <;> rfl
    | cons w ws =>
      cases p with
      | zero => simp only [List.set_cons_zero, List.getD_cons_zero, weightedSum]; omega
      | succ p =>
        have := ih ws (Nat.lt_of_succ_lt_succ h)
        simp only [List.set_cons_succ, List.getD_cons_succ, weightedSum]
        omega

/-- The modulus 11 divides no weight. -/
theorem coprime_weights : ∀ p < 17, Nat.Coprime 11 (weights.getD p 0) := by decide

/-- The remainder table has no code twice. -/
theorem remainderCodes_injective :
    ∀ a < 11, ∀ b < 11, remainderCodes.getD a 0 = remainderCodes.getD b 0 → a = b := by decide

/-- Settles O31: the weighted sums are different modulo 11, since the weight is invertible and the two digits are
different modulo 11. -/
theorem oneWrongDigitChangesTheCheckCode : Obligations.OneWrongDigitChangesTheCheckCode := by
  intro dig p d hlength hdigits hp hd hne hcodes
  have hp' : p < dig.length := hlength.symm ▸ hp
  have hold : dig.getD p 0 ≤ 9 := by
    rw [List.getD_eq_getElem _ _ hp']
    exact hdigits _ (List.getElem_mem hp')
  have hsums : weightedSum (dig.set p d) weights ≡ weightedSum dig weights [MOD 11] :=
    remainderCodes_injective _ (Nat.mod_lt _ (by decide)) _ (Nat.mod_lt _ (by decide)) hcodes
  have hterms : dig.getD p 0 * weights.getD p 0 ≡ d * weights.getD p 0 [MOD 11] :=
    hsums.add_left_cancel (by rw [weightedSum_set dig weights d hp'])
  have hmod : dig.getD p 0 ≡ d [MOD 11] := hterms.cancel_right_of_coprime (coprime_weights p hp)
  exact hne (hmod.eq_of_lt_of_lt (by omega) (by omega)).symm

@[simp] theorem length_decimalDigits (w n : Nat) : (decimalDigits w n).length = w := by
  induction w with
  | zero => rfl
  | succ w ih => rw [decimalDigits, List.length_cons, ih]

theorem le_nine_of_mem_decimalDigits {w n x : Nat} (h : x ∈ decimalDigits w n) : x ≤ 9 := by
  induction w with
  | zero => cases h
  | succ w ih =>
    obtain rfl | h := List.mem_cons.mp h
    · exact Nat.le_of_lt_succ (Nat.mod_lt _ (by decide))
    · exact ih h

/-- The digits of a number, read behind the digits of `front`. -/
theorem foldl_decimalDigits {w n : Nat} (front : Nat) (h : n < 10 ^ w) :
    (decimalDigits w n).foldl (fun n x => 10 * n + x) front = front * 10 ^ w + n := by
  have low : (decimalDigits w n).foldl (fun n x => 10 * n + x) front = front * 10 ^ w + n % 10 ^ w := by
    clear h
    induction w generalizing front with
    | zero => simp [decimalDigits, Nat.mod_one]
    | succ w ih => rw [decimalDigits, List.foldl_cons, ih, Nat.mod_pow_succ]; ring
  rw [low, Nat.mod_eq_of_lt h]

/-- Settles O32, field by field. -/
theorem digitsSpellTheFields : Obligations.DigitsSpellTheFields := by
  intro region y m d seq hregion hy hm hd hseq
  refine ⟨?_, fun x hx => ?_, ?_⟩
  · simp only [digits, List.length_append, length_decimalDigits]
  · simp only [digits, List.mem_append] at hx
    obtain h | h | h | h | h := hx
    all_goals exact le_nine_of_mem_decimalDigits h
  · simp only [digits, List.foldl_append]
    rw [foldl_decimalDigits 0 (by omega), foldl_decimalDigits _ (by omega), foldl_decimalDigits _ (by omega),
      foldl_decimalDigits _ (by omega), foldl_decimalDigits _ (by omega)]
    omega

end Sys2Proof.Machine
end

section
/-! The flat response record (spec/30_encoding.md R80 to R85). -/

namespace Sys2Proof.Machine

/-- The kinds that the block raises have the codes 4 to 11. -/
theorem code_of_blockError (e : BlockError) : 4 ≤ e.kind.code.toNat ∧ e.kind.code.toNat ≤ 11 := by
  cases e <;> simp [BlockError.kind, ErrorKind.code]

theorem record_ok_has_no_error (r : Result) : (Response.ok r).record.status = 0 ∧ (Response.ok r).record.layer = 0 ∧
    (Response.ok r).record.detail = 0 ∧ (Response.ok r).record.value = 0 := by
  cases r <;> exact ⟨rfl, rfl, rfl, rfl⟩

/-- The number of a field is its entry in the table of R83. -/
theorem number_of_mem {n : BitVec 3} {which : FieldId} (h : (n, which) ∈ [((1 : BitVec 3), FieldId.regionCode),
    (2, .year), (3, .month), (4, .day), (5, .sequence)]) : which.number = n := by
  simp only [List.mem_cons, Prod.mk.injEq, List.not_mem_nil, or_false] at h
  obtain ⟨rfl, rfl⟩ | ⟨rfl, rfl⟩ | ⟨rfl, rfl⟩ | ⟨rfl, rfl⟩ | ⟨rfl, rfl⟩ := h
  all_goals rfl

/-- Settles O56, response by response. -/
theorem responseRecordsSeparateOkFromError : Obligations.ResponseRecordsSeparateOkFromError := by
  refine ⟨?_, record_ok_has_no_error, fun e => ?_, ?_⟩
  · rintro zero rfl
    refine ⟨rfl, fun d => rfl, fun f check => rfl, fun day => ⟨rfl, rfl⟩, fun ver => rfl, fun byte => rfl, ?_,
      fun count => rfl, rfl, fun op => rfl⟩
    intro n which h value
    rw [← number_of_mem h]
    exact ⟨rfl, rfl⟩
  · obtain ⟨hmin, hmax⟩ := code_of_blockError e
    exact ⟨hmin, hmax, rfl, rfl, rfl, rfl, rfl, rfl, rfl⟩
  · intro code kind h
    simp only [List.mem_cons, Prod.mk.injEq, List.not_mem_nil, or_false] at h
    obtain ⟨rfl, rfl⟩ | ⟨rfl, rfl⟩ | ⟨rfl, rfl⟩ := h
    all_goals exact ⟨rfl, rfl⟩

end Sys2Proof.Machine
end

section
/-! `format` and PACK, check by check (spec/43_host_string_functions.md R197). -/

namespace Sys2Proof.Machine

/-- Both succeed, or both fail with one kind and one `DETAIL`. -/
def Agrees (packed : Except BlockError Block) (formatted : Except HostError IdentityNumber) : Prop :=
  (∃ v n, packed = .ok v ∧ formatted = .ok n) ∨
  (∃ e h, packed = .error e ∧ formatted = .error h ∧ e.kind = h.kind ∧ e.detail = h.detail)

/-- One check on each side, of one meaning, before checks that agree. -/
theorem agrees_check {failed failed' : Prop} [Decidable failed] [Decidable failed'] {e : BlockError} {h : HostError}
    {packed : Except BlockError Block} {formatted : Except HostError IdentityNumber} (hiff : failed ↔ failed')
    (herror : e.kind = h.kind ∧ e.detail = h.detail) (later : ¬failed → Agrees packed formatted) :
    Agrees (if failed then .error e else packed) (if failed' then .error h else formatted) := by
  by_cases hfailed : failed
  · rw [if_pos hfailed, if_pos (hiff.mp hfailed)]
    exact .inr ⟨e, h, rfl, rfl, herror⟩
  · rw [if_neg hfailed, if_neg (mt hiff.mpr hfailed)]
    exact later hfailed

/-- After the range checks `format` tests the date, and PACK the day against the length of its month. -/
theorem packChecked_agrees_formatFields (f : Fields) : Agrees (packChecked f)
    (formatFields f.region.toNat f.year.toNat f.month.toNat f.day.toNat f.seq.toNat) := by
  have hday5 := f.day.isLt
  refine agrees_check (by omega) ⟨rfl, rfl⟩ fun _ => agrees_check (by omega) ⟨rfl, rfl⟩ fun hyear =>
    agrees_check (by omega) ⟨rfl, rfl⟩ fun hmonth => agrees_check (by omega) ⟨rfl, rfl⟩ fun hday =>
    agrees_check (by omega) ⟨rfl, rfl⟩ fun _ => ?_
  simp only [Int.toNat_natCast]
  by_cases hlong : monthLen f.year.toNat f.month.toNat < f.day.toNat
  · have hinvalid : ¬ validDate f.year.toNat f.month.toNat f.day.toNat = true := by rw [validDate_iff]; omega
    rw [if_pos hlong, if_neg hinvalid]
    exact .inr ⟨_, _, rfl, rfl, rfl, rfl⟩
  · have hvalid : validDate f.year.toNat f.month.toNat f.day.toNat = true := by rw [validDate_iff]; omega
    rw [if_neg hlong, if_pos hvalid]
    exact .inl ⟨_, _, rfl, rfl⟩

/-- Settles O57: PACK answers what its checks give. -/
theorem formatAgreesWithPack : Obligations.FormatAgreesWithPack := by
  intro r y m d q s
  obtain ⟨v, n, hpacked, hformat⟩ | ⟨e, h, hpacked, hformat, hsame⟩ :=
    packChecked_agrees_formatFields ⟨r, y, m, d, q⟩
  · exact .inl ⟨v, n, exec_pack_of_packed hpacked s, hformat⟩
  · exact .inr ⟨e, h, exec_pack_of_error hpacked s, hformat, hsame⟩

end Sys2Proof.Machine
end

section
/-! Decimal strings (spec/43_host_string_functions.md R190, R193): parsing and writing digits undo each other. -/

namespace Sys2Proof.Machine

theorem isDigitChar_iff (c : Char) : isDigitChar c = true ↔ 48 ≤ c.toNat ∧ c.toNat ≤ 57 := decide_eq_true_iff

theorem digitValue_le_nine {c : Char} (h : isDigitChar c = true) : digitValue c ≤ 9 := by
  obtain ⟨-, hmax⟩ := (isDigitChar_iff c).mp h
  exact Nat.sub_le_of_le_add hmax

theorem digitChar_digitValue {c : Char} (h : isDigitChar c = true) : digitChar (digitValue c) = c := by
  obtain ⟨hmin, -⟩ := (isDigitChar_iff c).mp h
  rw [digitChar, digitValue, Nat.add_sub_cancel' hmin, Char.ofNat_toNat]

theorem foldl_decimal (s : List Char) (front : Nat) :
    s.foldl (fun n c => 10 * n + digitValue c) front = front * 10 ^ s.length + decimal s := by
  induction s generalizing front with
  | nil => simp [decimal]
  | cons c s ih => rw [decimal, List.foldl_cons, List.foldl_cons, ih, ih, List.length_cons, Nat.pow_succ]; ring

theorem decimal_cons (c : Char) (s : List Char) : decimal (c :: s) = digitValue c * 10 ^ s.length + decimal s := by
  rw [decimal, List.foldl_cons, foldl_decimal, Nat.mul_zero, Nat.zero_add]

theorem decimal_lt {s : List Char} (h : ∀ c ∈ s, isDigitChar c = true) : decimal s < 10 ^ s.length := by
  induction s with
  | nil => decide
  | cons c s ih =>
    obtain ⟨hc, hs⟩ := List.forall_mem_cons.mp h
    have hdigit := Nat.mul_le_mul_right (10 ^ s.length) (digitValue_le_nine hc)
    have hlater := ih hs
    rw [decimal_cons, List.length_cons, Nat.pow_succ]
    omega

/-- Only the low digits of a number are written. -/
theorem decimalDigits_add_decimal {s : List Char} (h : ∀ c ∈ s, isDigitChar c = true) (high : Nat) :
    decimalDigits s.length (high * 10 ^ s.length + decimal s) = s.map digitValue := by
  induction s generalizing high with
  | nil => rfl
  | cons c s ih =>
    obtain ⟨hc, hs⟩ := List.forall_mem_cons.mp h
    have hregroup : high * 10 ^ (s.length + 1) + (digitValue c * 10 ^ s.length + decimal s) =
        (high * 10 + digitValue c) * 10 ^ s.length + decimal s := by rw [Nat.pow_succ]; ring
    have hfirst : ((high * 10 + digitValue c) * 10 ^ s.length + decimal s) / 10 ^ s.length % 10 = digitValue c := by
      rw [Nat.mul_comm, Nat.mul_add_div (Nat.pow_pos (by decide)), Nat.div_eq_of_lt (decimal_lt hs), Nat.add_zero,
        Nat.mul_add_mod_self_right, Nat.mod_eq_of_lt (Nat.lt_succ_of_le (digitValue_le_nine hc))]
    rw [List.length_cons, decimal_cons, decimalDigits, hregroup, hfirst, ih hs, List.map_cons]

/-- The digits of the number that a string of `w` digits spells. -/
theorem decimalDigits_decimal {s : List Char} {w : Nat} (hw : s.length = w) (h : ∀ c ∈ s, isDigitChar c = true) :
    decimalDigits w (decimal s) = s.map digitValue := by
  have := decimalDigits_add_decimal h 0
  rwa [Nat.zero_mul, Nat.zero_add, hw] at this

theorem map_digitChar_map_digitValue {s : List Char} (h : ∀ c ∈ s, isDigitChar c = true) :
    (s.map digitValue).map digitChar = s := by
  rw [List.map_map]
  exact (List.map_congr_left fun c hc => digitChar_digitValue (h c hc)).trans (List.map_id s)

end Sys2Proof.Machine
end

section
/-! `parse` in the order of its steps (spec/43_host_string_functions.md R193). -/

namespace Sys2Proof.Machine

@[simp] theorem length_upperString (str : List Char) : (upperString str).length = str.length :=
  List.length_map upperChar

theorem checksumCode_of_digits {s : List Char} (hlength : s.length = 17) (h : ∀ c ∈ s, isDigitChar c = true) :
    checksumCode s = .ok (checkCode (s.map digitValue)) := by
  simp [checksumCode, hlength, List.all_eq_true.mpr h]

section
variable {str : List Char}

theorem parse_of_length (h : str.length ≠ 18) : parse str = .error .invalidLength := if_pos h

theorem parse_of_characters (hlength : str.length = 18)
    (h : (∃ c ∈ (upperString str).take 17, isDigitChar c = false) ∨
      (isDigitChar ((upperString str).getD 17 '0') = false ∧ (upperString str).getD 17 '0' ≠ 'X')) :
    parse str = .error .invalidCharacter := by
  unfold parse
  rw [if_neg (not_not.mpr hlength)]
  dsimp only
  split
  · rfl
  · next hfirst =>
    obtain ⟨c, hmem, hc⟩ | ⟨hdigit, hX⟩ := h
    · simp only [Bool.not_eq_true', Bool.not_eq_false, List.all_eq_true] at hfirst
      cases hc.symm.trans (hfirst c hmem)
    · rw [if_pos (by rw [hdigit, bne_iff_ne.mpr hX]; rfl)]

/-- With all characters in their classes, the check character decides. -/
theorem parse_of_classes (hlength : str.length = 18) (hfirst : ∀ c ∈ (upperString str).take 17, isDigitChar c = true)
    (hlast : isDigitChar ((upperString str).getD 17 '0') = true ∨ (upperString str).getD 17 '0' = 'X') :
    parse str = if (upperString str).getD 17 '0' = checkChar (checkCode (((upperString str).take 17).map digitValue))
      then parseFields (upperString str) (checkCode (((upperString str).take 17).map digitValue))
      else .error .invalidCheckCode := by
  have hchecksum := checksumCode_of_digits (by simp [hlength]) hfirst
  have hclass : ¬ (!isDigitChar ((upperString str).getD 17 '0') && (upperString str).getD 17 '0' != 'X') = true := by
    obtain h | h := hlast
    · rw [h]; simp
    · rw [h]; decide
  unfold parse
  rw [if_neg (not_not.mpr hlength)]
  dsimp only
  rw [if_neg (by simpa using hfirst), if_neg hclass, hchecksum]

end

/-- Settles O58: the failures come in the order of the steps, and the date decides last. -/
theorem parseFailsInStepOrder : Obligations.ParseFailsInStepOrder := by
  rintro str u last y m d rfl rfl rfl rfl rfl
  refine ⟨parse_of_length, parse_of_characters, fun hlength hfirst hlast => ?_⟩
  rw [parse_of_classes hlength hfirst hlast]
  refine ⟨fun h => if_neg h, fun h hdate => ?_, fun h hdate => ?_⟩
  · rw [if_pos h]
    exact if_neg (Bool.eq_false_iff.mp hdate)
  · rw [if_pos h]
    exact if_pos hdate

/-- The number that `parse` reads from an upper-cased string. -/
def numberOf (u : List Char) : IdentityNumber :=
  ⟨decimal (u.take 6), decimal ((u.drop 6).take 4), decimal ((u.drop 10).take 2), decimal ((u.drop 12).take 2),
    decimal ((u.drop 14).take 3), checkCode ((u.take 17).map digitValue)⟩

/-- What an accepted string is: every other one fails in one of the steps of O58. -/
theorem parse_eq_ok {str : List Char} {n : IdentityNumber} (h : parse str = .ok n) :
    (upperString str).length = 18 ∧ (∀ c ∈ (upperString str).take 17, isDigitChar c = true) ∧
      (upperString str).getD 17 '0' = checkChar (numberOf (upperString str)).check ∧
      validDate n.year n.month n.day = true ∧ n = numberOf (upperString str) := by
  obtain ⟨hbadLength, hbadCharacter, hclasses⟩ := parseFailsInStepOrder str _ _ _ _ _ rfl rfl rfl rfl rfl
  have hlength : str.length = 18 := by
    by_contra hne
    cases (hbadLength hne).symm.trans h
  have hfirst : ∀ c ∈ (upperString str).take 17, isDigitChar c = true := by
    intro c hmem
    by_contra hc
    cases (hbadCharacter hlength (.inl ⟨c, hmem, Bool.eq_false_iff.mpr hc⟩)).symm.trans h
  have hlast : isDigitChar ((upperString str).getD 17 '0') = true ∨ (upperString str).getD 17 '0' = 'X' := by
    by_contra hneither
    obtain ⟨hdigit, hX⟩ := not_or.mp hneither
    cases (hbadCharacter hlength (.inr ⟨Bool.eq_false_iff.mpr hdigit, hX⟩)).symm.trans h
  obtain ⟨hbadCheck, hbadDate, hok⟩ := hclasses hlength hfirst hlast
  have hcheck : (upperString str).getD 17 '0' = checkChar (numberOf (upperString str)).check := by
    by_contra hne
    cases (hbadCheck hne).symm.trans h
  cases hdate : validDate (numberOf (upperString str)).year (numberOf (upperString str)).month
      (numberOf (upperString str)).day with
  | false => cases (hbadDate hcheck hdate).symm.trans h
  | true =>
    cases (hok hcheck hdate).symm.trans h
    exact ⟨(length_upperString str).trans hlength, hfirst, hcheck, hdate, rfl⟩

end Sys2Proof.Machine
end

section
/-! The canonical string of a parsed number (spec/43_host_string_functions.md R199, R201). -/

namespace Sys2Proof.Machine

/-- The first 17 characters, cut into the five fields (R76). -/
theorem take_seventeen (u : List Char) : u.take 17 = u.take 6 ++ ((u.drop 6).take 4 ++ ((u.drop 10).take 2 ++
    ((u.drop 12).take 2 ++ (u.drop 14).take 3))) := by
  rw [show 17 = 6 + (4 + (2 + (2 + 3))) by rfl, List.take_add, List.take_add, List.take_add, List.take_add]
  simp only [List.drop_drop, Nat.reduceAdd]

section
variable {u : List Char} (hlength : u.length = 18) (hdigits : ∀ c ∈ u.take 17, isDigitChar c = true)
include hlength hdigits

/-- The digits of the fields are the digits that the string spells. -/
theorem digits_numberOf : digits (numberOf u).region (numberOf u).year (numberOf u).month (numberOf u).day
    (numberOf u).seq = (u.take 17).map digitValue := by
  rw [take_seventeen] at hdigits ⊢
  simp only [List.forall_mem_append] at hdigits
  obtain ⟨hregion, hyear, hmonth, hday, hseq⟩ := hdigits
  rw [digits, numberOf, decimalDigits_decimal (by simp [hlength]) hregion,
    decimalDigits_decimal (by simp [hlength]) hyear, decimalDigits_decimal (by simp [hlength]) hmonth,
    decimalDigits_decimal (by simp [hlength]) hday, decimalDigits_decimal (by simp [hlength]) hseq]
  simp only [List.map_append]

theorem numberOf_bounds : (numberOf u).region ≤ 999999 ∧ (numberOf u).seq ≤ 999 := by
  rw [take_seventeen] at hdigits
  simp only [List.forall_mem_append] at hdigits
  obtain ⟨hregion, -, -, -, hseq⟩ := hdigits
  have hregion' := decimal_lt hregion
  have hseq' := decimal_lt hseq
  rw [List.length_take, hlength] at hregion'
  rw [List.length_take, List.length_drop, hlength] at hseq'
  exact ⟨Nat.le_of_lt_succ hregion', Nat.le_of_lt_succ hseq'⟩

/-- The digits and the check character of the number spell the string. -/
theorem canonicalString_numberOf (hlast : u.getD 17 '0' = checkChar (numberOf u).check) :
    canonicalString (numberOf u) = u := by
  have hlt : 17 < u.length := by omega
  rw [canonicalString, digits_numberOf hlength hdigits, map_digitChar_map_digitValue hdigits, ← hlast,
    List.getD_eq_getElem _ _ hlt, ← List.take_succ_eq_append_getElem hlt, List.take_of_length_le hlength.le]

end

/-- Settles O59: an accepted string is `numberOf` spelled out. -/
theorem parsedNumberIsLegalAndCanonical : Obligations.ParsedNumberIsLegalAndCanonical := by
  intro str n h
  obtain ⟨hlength, hdigits, hlast, hdate, rfl⟩ := parse_eq_ok h
  obtain ⟨hregion, hseq⟩ := numberOf_bounds hlength hdigits
  refine ⟨hregion, hseq, hdate, ?_, canonicalString_numberOf hlength hdigits hlast⟩
  rw [digits_numberOf hlength hdigits]
  rfl

/-- The operands of the commands that a host issues for a number (R201). -/
def operandsOf (n : IdentityNumber) : Fields :=
  ⟨BitVec.ofNat 20 n.region, BitVec.ofNat 14 n.year, BitVec.ofNat 4 n.month, BitVec.ofNat 5 n.day,
    BitVec.ofNat 10 n.seq⟩

/-- A legal number fits the operands. -/
theorem toNat_operandsOf {n : IdentityNumber} (hregion : n.region ≤ 999999) (hseq : n.seq ≤ 999)
    (hdate : validDate n.year n.month n.day = true) : (operandsOf n).region.toNat = n.region ∧
      (operandsOf n).year.toNat = n.year ∧ (operandsOf n).month.toNat = n.month ∧
      (operandsOf n).day.toNat = n.day ∧ (operandsOf n).seq.toNat = n.seq := by
  obtain ⟨hyear, hmonth, hmonth', hday, hday'⟩ := (validDate_iff _ _ _).mp hdate
  have hshort := hday'.trans (monthLen_le hmonth hmonth')
  exact ⟨Nat.mod_eq_of_lt (by omega), Nat.mod_eq_of_lt (by omega), Nat.mod_eq_of_lt (by omega),
    Nat.mod_eq_of_lt (by omega), Nat.mod_eq_of_lt (by omega)⟩

/-- Settles O60: the cipher stages cancel, UNPACK reads the operands and their check code from PACK's word, and they form
the number again, whose canonical string is the upper-cased input. -/
theorem stringRoundTripThroughTheBlock : Obligations.StringRoundTripThroughTheBlock := by
  intro str n s t h hinst hrk hkeyValid
  obtain ⟨hregion, hseq, hdate, hcheck, hstring⟩ := parsedNumberIsLegalAndCanonical str n h
  obtain ⟨hregion', hyear', hmonth', hday', hseq'⟩ := toNat_operandsOf hregion hseq hdate
  have hidentity : identityOf (operandsOf n) n.check = n := by
    rw [identityOf, hregion', hyear', hmonth', hday', hseq']
  have hlegal : legalFields (operandsOf n) = true := by
    rw [legalFields_iff, hregion', hyear', hmonth', hday', hseq']
    exact ⟨hregion, hseq, hdate⟩
  have hunpack := unpackChecked_packedFields hlegal
  rw [hregion', hyear', hmonth', hday', hseq', ← hcheck] at hunpack
  refine ⟨_, operandsOf n, n.check, exec_encode_of_packed (packChecked_legal hlegal) s, ?_, by rw [hidentity, hstring]⟩
  rw [exec_decode_eq_exec_unpack, decryptIfKeyed_encryptIfKeyed hinst hrk hkeyValid]
  exact exec_unpack_of_unpacked hunpack t

end Sys2Proof.Machine
end
